-- ==== Sys2Proof/Word.lean ====
section
/-! DEFINITION. The word types of the block, one for each width the spec gives (30_encoding.md R80, R84 to R87).
`SAMPLE_BITS` = 10, `SAMPLE_MAX` = 1023 and `COUNT_BITS` = 8 of 00_scope.md R9 are fixed here by the types. -/

namespace Sys2Proof

/-- An 8-bit register or compare count (R26, R27, R80). -/
abbrev Byte := BitVec 8

/-- AnalogSample, 0..1023 (R21). -/
abbrev Sample := BitVec 10

/-- The 7-bit percent port; a PowerPercent is a value 0..100 of it (R84, R25). -/
abbrev Percent := BitVec 7

/-- The 14-bit delay port; a FiringDelay is a value 0..9999 of it (R84, R120). -/
abbrev Delay := BitVec 14

/-- A command word for the Timer Driver (R85). -/
abbrev Tcmd12 := BitVec 12

/-- The pending-event vector (R86). -/
abbrev Evt3 := BitVec 3

/-- A stimulus word of an event trace (R87). -/
abbrev Stim16 := BitVec 16

end Sys2Proof
end

