-- ==== Sys2Proof/Syntax.lean ====
section
/-! DEFINITION. The sixteen operations of the block (30_encoding.md R92), the words that select them, and the plain
enumerations the spec names. -/

namespace Sys2Proof

/-- The prescaler of a TimerProgram, one of 8, 64, 256 (R25, R80). -/
inductive Prescaler where
  | by8 | by64 | by256
deriving DecidableEq, Repr

/-- The values of the cell `CS`: exactly four are legal (R28, R82). -/
inductive ClockSel where
  | stopped | div8 | div64 | div256
deriving DecidableEq, Repr

/-- ControllerState, the values of the cell `CST` (R22). -/
inductive CtlState where
  | armed | firing
deriving DecidableEq, Repr

/-- How far `TPROG` has got, the values of the cell `TDS` (R36). -/
inductive TdStep where
  | idle | s1 | s2 | s3 | s4 | s5 | s6
deriving DecidableEq, Repr

/-- The three event sources, in the order of priority (R212, R215). -/
inductive Event where
  | zeroCross | timerCompare | conversionComplete
deriving DecidableEq, Repr

/-- A TimerProgram: the pair (prescaler, compareCount) of R25 and R120. -/
structure TimerProgram where
  prescaler : Prescaler
  count : Byte
deriving DecidableEq, Repr

/-- The result of the Delay Translator: a program, or "caller must stop the timer instead of arming it" (R123, R127). -/
inductive TimerCommand where
  | stop
  | program (tp : TimerProgram)
deriving DecidableEq, Repr

/-- The operations, one constructor for each row of the opcode table (R92). -/
inductive Instr where
  /-- `MAP`, the Duty Mapper at its sample port (R111). -/
  | map (sample : Sample)
  /-- `P2D`, percent to firing delay (R121). -/
  | p2d (percent : Percent)
  /-- `D2P`, firing delay to timer program (R124). -/
  | d2p (delay : Delay)
  /-- `CALC`, percent to timer command word (R127). -/
  | calcWord (percent : Percent)
  /-- `TPROG`, a command word with `k = 1`: its fields `cs` and `cc` (R85, R141). -/
  | tprog (cs : BitVec 3) (cc : Byte)
  /-- `TSTOP`, the command word 0x000 (R145). -/
  | tstop
  /-- `H_ZC`, the zero-cross handler's body (R171). -/
  | hZc
  /-- `H_CM`, the compare-match handler's body (R161). -/
  | hCm
  /-- `H_CC`, the conversion-complete handler's body (R181). -/
  | hCc
  /-- `RST` (R191). -/
  | rst
  /-- `START` (R192). -/
  | start
  /-- `ZC`, a zero-cross edge (R193). -/
  | zc
  /-- `ADC v`, a conversion completes with result `v` (R194). -/
  | adc (v : Sample)
  /-- `TICK n`, `n` timer ticks, each followed by a `RUN` (R196). -/
  | tick (n : BitVec 12)
  /-- `CM`, a compare-match event (R197). -/
  | cm
  /-- `RUN`, dispatch everything pending and enabled (R198). -/
  | run
deriving DecidableEq, Repr

/-- A word at a port of a sub-block: an operand at the input port of one pure function (R84), or a command word at the Timer
Driver's port (R85). In the assembled block these ports are driven only inside handlers (46_environment_ops.md R190). -/
inductive PortWord where
  | mapPort (sample : Sample)
  | p2dPort (percent : Percent)
  | d2pPort (delay : Delay)
  | calcPort (percent : Percent)
  | tcmd12 (w : Tcmd12)
deriving DecidableEq, Repr

/-- A word that selects an operation: one at a sub-block's port, a stimulus word (R87), or the event vector, which is no
cell and comes from nowhere but the state (R86). The format is part of what is presented: no bit of the word itself says
which format it has (R91). -/
inductive CodeWord where
  | port (w : PortWord)
  | stim16 (w : Stim16)
  | evt3 (e : Evt3)
deriving DecidableEq, Repr

/-- One entry of a schedule of the assembled block (R190, R200): a stimulus word, one dispatch of the core's dispatcher
(R199), or one tick of the timer agent (R195). -/
inductive Entry where
  | stim (w : Stim16)
  | dispatch
  | tick
deriving DecidableEq, Repr

/-- A trace's words: a schedule of stimuli (R200), or a list of port values for sub-blocks driven alone
(95_test_vectors.md P5). -/
inductive Trace where
  | stimuli (ws : List Stim16)
  | bench (ws : List PortWord)
deriving DecidableEq, Repr

/-- The pseudo-operations of the trace syntax (R94). -/
inductive Pseudo where
  | zcr
  | adcr (v : Sample)
  | cmr
  | nop
  | wait (n : BitVec 12)
  | boot
deriving DecidableEq, Repr

end Sys2Proof
end

