-- ==== Sys2Proof/Decode.lean ====
section
/-! DEFINITION. Decoding, total on every word of every format and rejecting by name, and the encoder
(30_encoding.md R81 to R92). -/

namespace Sys2Proof

/-! ## Enumeration codes (R81 to R83) -/

/-- `sel(N)`, the clock-select code of a prescaler (R82). -/
def sel : Prescaler → BitVec 3
  | .by8 => 0b010#3
  | .by64 => 0b011#3
  | .by256 => 0b100#3

/-- `presc(code)`, the inverse of `sel` on its three codes (R82); every other code has no prescaler. -/
def presc (code : BitVec 3) : Option Prescaler :=
  if code = 0b010#3 then some .by8
  else if code = 0b011#3 then some .by64
  else if code = 0b100#3 then some .by256
  else none

/-- The code of a value of the cell `CS` (R82). -/
def clockCode : ClockSel → BitVec 3
  | .stopped => 0b000#3
  | .div8 => 0b010#3
  | .div64 => 0b011#3
  | .div256 => 0b100#3

/-- The value of the cell `CS` that selects a prescaler (R28). -/
def clockOf : Prescaler → ClockSel
  | .by8 => .div8
  | .by64 => .div64
  | .by256 => .div256

/-- The code of a value of the cell `CST` (R81). -/
def ctlCode : CtlState → BitVec 1
  | .armed => 0#1
  | .firing => 1#1

/-- The code of a value of the cell `TDS` (R83). -/
def tdsCode : TdStep → BitVec 3
  | .idle => 0#3
  | .s1 => 1#3
  | .s2 => 2#3
  | .s3 => 3#3
  | .s4 => 4#3
  | .s5 => 5#3
  | .s6 => 6#3

/-! ## Decoding -/

/-- Why a word selects no operation. -/
inductive DecodeError where
  /-- TCMD12 with `k = 0` and a low bit set (R85). -/
  | reservedTcmd12
  /-- STIM16 with a reserved `op` or an illegal `arg` (R88). -/
  | invalidStimulus
  /-- EVT3 = 0b000 "selects nothing" (R86). -/
  | nothingPending
deriving DecidableEq, Repr

/-- TCMD12 (R85, R92): `k = 1` selects `TPROG` with its fields, the word 0x000 selects `TSTOP`. Whether `cs` is one of the
three legal codes is `TPROG`'s own check, as in the opcode table's row (log 14). -/
def decodeTcmd12 (w : Tcmd12) : Except DecodeError Instr :=
  if w.getLsbD 11 then .ok (.tprog (w.extractLsb' 8 3) (w.extractLsb' 0 8))
  else if w = 0x000#12 then .ok .tstop
  else .error .reservedTcmd12

/-- The priority decode of EVT3: zero-cross, then timer-compare, then conversion-complete (R86, R215). -/
def selectEvent (e : Evt3) : Option Event :=
  if e.getLsbD 2 then some .zeroCross
  else if e.getLsbD 1 then some .timerCompare
  else if e.getLsbD 0 then some .conversionComplete
  else none

/-- The handler that serves an event (R212). -/
def handlerOf : Event → Instr
  | .zeroCross => .hZc
  | .timerCompare => .hCm
  | .conversionComplete => .hCc

/-- EVT3 (R86). -/
def decodeEvt3 (e : Evt3) : Except DecodeError Instr :=
  match selectEvent e with
  | some ev => .ok (handlerOf ev)
  | none => .error .nothingPending

/-- A stimulus whose `arg` "must be 0" (R87, R88). -/
def bareStimulus (arg : BitVec 12) (i : Instr) : Except DecodeError Instr :=
  if arg = 0#12 then .ok i else .error .invalidStimulus

/-- STIM16: `op = w[15:12]`, `arg = w[11:0]` (R87); every other word is `invalid` (R88). -/
def decodeStim16 (w : Stim16) : Except DecodeError Instr :=
  let arg : BitVec 12 := w.extractLsb' 0 12
  match (w.extractLsb' 12 4).toNat with
  | 0 => bareStimulus arg .rst
  | 1 => bareStimulus arg .start
  | 2 => bareStimulus arg .zc
  | 3 => if arg.extractLsb' 10 2 = 0#2 then .ok (.adc (arg.extractLsb' 0 10)) else .error .invalidStimulus
  | 4 => .ok (.tick arg)
  | 5 => bareStimulus arg .cm
  | 6 => bareStimulus arg .run
  | _ => .error .invalidStimulus

/-- The operation that a word at a sub-block's port selects (R92). -/
def decodePort : PortWord → Except DecodeError Instr
  | .mapPort x => .ok (.map x)
  | .p2dPort p => .ok (.p2d p)
  | .d2pPort d => .ok (.d2p d)
  | .calcPort p => .ok (.calcWord p)
  | .tcmd12 w => decodeTcmd12 w

/-- The operation that a code word selects. -/
def decode : CodeWord → Except DecodeError Instr
  | .port w => decodePort w
  | .stim16 w => decodeStim16 w
  | .evt3 e => decodeEvt3 e

/-! ## Encoding -/

/-- A STIM16 word from its fields (R87). -/
def stimWord (op : BitVec 4) (arg : BitVec 12) : Stim16 := op ++ arg

/-- A PROGRAM word from its fields (R85). -/
def programWord (cs : BitVec 3) (cc : Byte) : Tcmd12 := (1#1 ++ cs ++ cc : BitVec 12)

/-- The TCMD12 word of a command (R85): STOP is 0x000, PROGRAM is `1 ++ sel(N) ++ cc`. -/
def commandWord : TimerCommand → Tcmd12
  | .stop => 0x000#12
  | .program tp => programWord (sel tp.prescaler) tp.count

/-- The words of an operation, from the tables of R84 to R87. A handler's vector has its don't-care bits 0. -/
def encode : Instr → CodeWord
  | .map x => .port (.mapPort x)
  | .p2d p => .port (.p2dPort p)
  | .d2p d => .port (.d2pPort d)
  | .calcWord p => .port (.calcPort p)
  | .tprog cs cc => .port (.tcmd12 (programWord cs cc))
  | .tstop => .port (.tcmd12 0x000#12)
  | .hZc => .evt3 0b100#3
  | .hCm => .evt3 0b010#3
  | .hCc => .evt3 0b001#3
  | .rst => .stim16 (stimWord 0x0#4 0#12)
  | .start => .stim16 (stimWord 0x1#4 0#12)
  | .zc => .stim16 (stimWord 0x2#4 0#12)
  | .adc v => .stim16 (stimWord 0x3#4 (0#2 ++ v : BitVec 12))
  | .tick n => .stim16 (stimWord 0x4#4 n)
  | .cm => .stim16 (stimWord 0x5#4 0#12)
  | .run => .stim16 (stimWord 0x6#4 0#12)

/-- The expansion of a pseudo-operation into stimuli (R94). -/
def expandPseudo : Pseudo → List Instr
  | .zcr => [.zc, .run]
  | .adcr v => [.adc v, .run]
  | .cmr => [.cm, .run]
  | .nop => [.tick 0#12]
  | .wait n => [.tick n]
  | .boot => [.rst, .start]

/-! ## The table's own numbering of words -/

/-- Whether a decoder accepts a word. -/
def accepted (r : Except DecodeError Instr) : Bool :=
  match r with
  | .ok _ => true
  | .error _ => false

/-- A 16-bit table word. The table's rows of 10 to 16 bits all fill two bytes and no bit of the word names the format, so
the format is the first of STIM16, TCMD12, the `MAP` port, the `D2P` port that has room for the word and assigns it to an
operation: the rows with the most fixed bits first. DESIGN CHOICE, log 4. -/
def tableWord16 (w : Nat) : CodeWord :=
  if accepted (decodeStim16 (BitVec.ofNat 16 w)) then .stim16 (BitVec.ofNat 16 w)
  else if w < 4096 ∧ accepted (decodeTcmd12 (BitVec.ofNat 12 w)) then .port (.tcmd12 (BitVec.ofNat 12 w))
  else if w < 1024 then .port (.mapPort (BitVec.ofNat 10 w))
  else if w < 16384 then .port (.d2pPort (BitVec.ofNat 14 w))
  else .stim16 (BitVec.ofNat 16 w)

/-- The code word that a table word of `nbits` bits stands for. A row's exact width (10, 7, 14, 12, 3) names its format,
but for `P2D` and `CALC`, whose rows have one pattern: the table's first is taken. Eight bits are an event vector if one
of its three bits is set and no other, a percent port otherwise. DESIGN CHOICE, log 4. -/
def tableWord (nbits w : Nat) : Option CodeWord :=
  if 2 ^ nbits ≤ w then none
  else match nbits with
    | 3 => some (.evt3 (BitVec.ofNat 3 w))
    | 7 => some (.port (.p2dPort (BitVec.ofNat 7 w)))
    | 8 =>
      if w = 0 then some (.port (.p2dPort 0#7))
      else if w < 8 then some (.evt3 (BitVec.ofNat 3 w))
      else if w < 128 then some (.port (.p2dPort (BitVec.ofNat 7 w)))
      else none
    | 10 => some (.port (.mapPort (BitVec.ofNat 10 w)))
    | 12 => some (.port (.tcmd12 (BitVec.ofNat 12 w)))
    | 14 => some (.port (.d2pPort (BitVec.ofNat 14 w)))
    | 16 => some (tableWord16 w)
    | _ => none

/-- The operation that the decoder reads from a word numbered as the opcode table numbers it. -/
def decodeTableWord (nbits w : Nat) : Option Instr :=
  match tableWord nbits w with
  | some cw =>
    match decode cw with
    | .ok i => some i
    | .error _ => none
  | none => none

end Sys2Proof
end

