-- ==== Sys2Proof/Machine/State.lean ====
section
/-! DEFINITION. The state of the block: the 17 cells of 10_state.md R20 under their own names, and four fields of the
model's own. The block has no memory, no program counter and no register file (R20, R24, 20_memory.md R60). -/

namespace Sys2Proof.Machine

/-- The output ports of the pure functions (R84), each holding the last word its function computed driven on its own; a
handler that calls a function does not write them. The model's own fields: no cell of the spec, and read by no operation. `delayOut` is `none` while `dvalid = 0`, where the spec gives
`delay_us` no value. Log 1. -/
structure Ports where
  /-- `percent[6:0]` of `MAP`. -/
  percentOut : Percent
  /-- `dvalid` and `delay_us[13:0]` of `P2D`. -/
  delayOut : Option Delay
  /-- `cs[2:0]` of `D2P`. -/
  csOut : BitVec 3
  /-- `compare_count[7:0]` of `D2P`. -/
  ccOut : Byte
  /-- The TCMD12 word of `CALC`. -/
  tcmdOut : Tcmd12
deriving DecidableEq, Repr

/-- The state (R20). -/
structure State where
  /-- AnalogSample (R21). -/
  AS : Sample
  /-- ControllerState (R22). -/
  CST : CtlState
  /-- The trigger output, true = asserted (R23). -/
  TRIG : Bool
  /-- The timer's free-running counter (R26). -/
  TCNT : Byte
  /-- The timer's compare register (R27). -/
  OCR : Byte
  /-- The timer's clock select (R28). -/
  CS : ClockSel
  /-- The compare-match flag (R29). -/
  OCF : Bool
  /-- The compare interrupt enable (R30). -/
  OCIE : Bool
  /-- The global interrupt mask, true = handlers may be dispatched (R31). -/
  GIE : Bool
  /-- The zero-cross pending bit (R32). -/
  ZCF : Bool
  /-- The conversion-complete pending bit (R33). -/
  ADIF : Bool
  /-- A conversion has been requested and has not completed (R34). -/
  ADBUSY : Bool
  /-- The low part of the raw conversion result (R35). -/
  ADL : Byte
  /-- The high part of the raw conversion result (R35). -/
  ADH : BitVec 2
  /-- The Timer Driver's sequencing step (R36). -/
  TDS : TdStep
  /-- `START` has not yet run since reset (R37). -/
  HALTED : Bool
  /-- An operation was asked something outside its domain (R38). -/
  REFUSED : Bool
  /-- The model's own: how many free values have been drawn (log 6). -/
  draws : Nat
  /-- The model's own: the output ports (log 1). -/
  ports : Ports
  /-- The model's own: the agents' next steps in the assembled block, oldest first (log 2). -/
  schedule : List Entry
  /-- The model's own: words at the ports of sub-blocks driven alone, oldest first; empty in the assembled block (R190,
  log 13). -/
  bench : List PortWord
deriving DecidableEq, Repr

/-- The block raises no synchronous exception and the table of causes is empty (R210): no step ends in a fault, and the
type has no constructor. Log 16. -/
inductive Fault : Type
deriving DecidableEq, Repr

/-- Where an operation has no meaning the step has no successor (`refuse`, 00_scope.md section 5). A refusal of the spec
carries what the observation then sees: the state at the refusal with `REFUSED` set (R38, R128; log 9). -/
inductive Refusal where
  /-- Raised by an arm of `exec` that has no meaning yet; safe. No arm is left. -/
  | notModelled (mnemonic : String)
  /-- Raised by `P2D`, `CALC` and (never in fact) `H_ZC` for a percent of 101..127 (R128); safe. -/
  | percentOutOfRange (marked : State)
  /-- Raised by `TPROG` for a reserved `cs`, and by a step at a reserved TCMD12 word (R85, R147); safe. -/
  | reservedTcmd12 (marked : State)
  /-- Raised by a step at an invalid STIM16 word (R88); safe. -/
  | invalidStimulus (marked : State)
deriving DecidableEq, Repr

/-- The output ports at reset: the functions' values at input 0 (`MAP(0) = 0`, `P2D(0)` = none, `D2P(0) = (8, 0)`,
`CALC(0)` = 0x000). DESIGN CHOICE, log 1. -/
def Ports.reset : Ports where
  percentOut := 0#7
  delayOut := none
  csOut := 0b010#3
  ccOut := 0#8
  tcmdOut := 0x000#12

/-- The state right after reset (R40). `TCNT`, `OCR`, `ADL`, `ADH` are unspecified there and 0 here: DESIGN CHOICE,
unsafe, log 5. The model's own fields: logs 1, 3, 6, 13. -/
def State.reset : State where
  AS := 0#10
  CST := .armed
  TRIG := false
  TCNT := 0#8
  OCR := 0#8
  CS := .stopped
  OCF := false
  OCIE := false
  GIE := false
  ZCF := false
  ADIF := false
  ADBUSY := false
  ADL := 0#8
  ADH := 0#2
  TDS := .idle
  HALTED := true
  REFUSED := false
  draws := 0
  ports := Ports.reset
  schedule := []
  bench := []

end Sys2Proof.Machine
end

