-- ==== Sys2Proof/Machine/Flags.lean ====
section
/-! DEFINITION. The flags: pending events, enables and the vector read off them (10_state.md R29 to R33, R41;
30_encoding.md R86). No arithmetic operation writes a flag (R41). -/

namespace Sys2Proof.Machine

/-- `EVT3 = ZCF ++ (OCF and OCIE) ++ ADIF` (R86). -/
def State.evt3 (s : State) : Evt3 :=
  (BitVec.ofBool s.ZCF ++ BitVec.ofBool (s.OCF && s.OCIE) ++ BitVec.ofBool s.ADIF : BitVec 3)

/-- The event that a dispatch would serve, whatever the mask (R86, R215). -/
def State.pendingEvent (s : State) : Option Event := selectEvent s.evt3

/-- Dispatch is enabled: `GIE = 1` and EVT3 is not 0b000 (R199). -/
def State.canDispatch (s : State) : Bool := s.GIE && s.pendingEvent.isSome

/-- The timer's clock runs (R195). -/
def State.clockRuns (s : State) : Bool := s.CS != .stopped

/-- The tick finds the counter equal to the compare register (R195). -/
def State.atMatch (s : State) : Bool := s.TCNT == s.OCR

/-- Clear the pending flag of an event (R217). -/
def clearPending : Event → State → State
  | .zeroCross, s => { s with ZCF := false }
  | .timerCompare, s => { s with OCF := false }
  | .conversionComplete, s => { s with ADIF := false }

end Sys2Proof.Machine
end

