-- ==== Sys2Proof/Config.lean ====
section
/-! DEFINITION. The parameter record of 00_scope.md R9 and the free values. The values of the parameters stand in
Machine/Parameters.lean. -/

namespace Sys2Proof.Config

/-- `ROUND_MODE` (R9, R125, 93_implementation_defined.md U4): the spec names half-up, its default; `halfEven` is the one
other mode its vectors mention (95_test_vectors.md 2.2). DESIGN CHOICE, log 12. -/
inductive RoundMode where
  | halfUp | halfEven
deriving DecidableEq, Repr

/-- The parameters of R9, under the spec's names. `range256Us` closes the spec's range table; no rule reads it, because
the last branch of `D2P` takes every longer delay (R124, R126). -/
structure Params where
  mapMin : Nat
  mapMaxUsable : Nat
  upperThreshold : Nat
  lowerThreshold : Nat
  thresholdsInclusive : Bool
  halfPeriodUs : Nat
  detectorDelayUs : Nat
  pulseUs : Nat
  fullPowerDelayUs : Nat
  range8Us : Nat
  range64Us : Nat
  range256Us : Nat
  fClkHz : Nat
  roundMode : RoundMode
deriving DecidableEq, Repr

/-- `FULL_POWER_DELAY_US`, the one OPEN parameter: an integer in [0, 10000) and nothing more is known of it (R9, R122,
decision D9). Log 7, safe: a statement holds for every value. -/
opaque fullPowerDelay : Fin 10000

/-- The free 8-bit values that `RST` draws, by the number of the draw (R40, R191). Log 6, safe. -/
opaque drawByte : Nat → Byte

/-- The free 2-bit values that `RST` draws, by the number of the draw (R40, R191). Log 6, safe. -/
opaque drawPair : Nat → BitVec 2

end Sys2Proof.Config
end

