-- ==== Sys2Proof/Machine/Parameters.lean ====
section
/-! DEFINITION. The values of the parameters (00_scope.md R9). -/

namespace Sys2Proof.Machine

/-- The parameter record with the values of R9. The values are the spec's, some of them its own decisions (D3 to D7, D9:
log 18); `FULL_POWER_DELAY_US` stays open (log 7). -/
def parameters : Config.Params where
  mapMin := 205
  mapMaxUsable := 1023
  upperThreshold := 941
  lowerThreshold := 220
  thresholdsInclusive := true
  halfPeriodUs := 10000
  detectorDelayUs := 1000
  pulseUs := 250
  fullPowerDelayUs := Config.fullPowerDelay.val
  range8Us := 425
  range64Us := 3400
  range256Us := 13600
  fClkHz := 4800000
  roundMode := .halfUp

end Sys2Proof.Machine
end

