-- ==== Sys2Proof/Machine/Operands.lean ====
section
/-! DEFINITION. Operand assembly (30_encoding.md R90) and the exact arithmetic of the pure functions
(40_duty_mapper.md, 41_delay_translator.md). The functions take the parameter record as an argument (00_scope.md R9). -/

namespace Sys2Proof.Machine

open Sys2Proof.Config (Params RoundMode)

/-! ## Operand assembly (R90) -/

/-- The low part of a conversion result, bits 7:0 (R90, R194). -/
def sampleLow (v : Sample) : Byte := v.extractLsb' 0 8

/-- The high part of a conversion result, bits 9:8 (R90, R194). -/
def sampleHigh (v : Sample) : BitVec 2 := v.extractLsb' 8 2

/-- `zext_10(hi) * 256 + zext_10(lo)`, the low part in the less significant position (R62, R181). -/
def assembleSample (lo : Byte) (hi : BitVec 2) : Sample := hi.zeroExtend 10 * 256#10 + lo.zeroExtend 10

/-- The relative compare target `(TCNT + cc) mod 256`, the carry out discarded (R144). -/
def compareTarget (tcnt cc : Byte) : Byte := tcnt + cc

/-- The divisor of a prescaler (R25). -/
def divisor : Prescaler → Nat
  | .by8 => 8
  | .by64 => 64
  | .by256 => 256

/-- `clamp(v, lo, hi) = min(max(v, lo), hi)` on integers (00_scope.md section 5). -/
def clamp (v lo hi : Int) : Int := min (max v lo) hi

/-- The rational `a / b` rounded once to an integer, `b > 0`: half up is `floor(q + 1/2)` (00_scope.md section 5). -/
def roundQuotient (mode : RoundMode) (a b : Nat) : Nat :=
  match mode with
  | .halfUp => (2 * a + b) / (2 * b)
  | .halfEven =>
    if 2 * (a % b) = b then a / b + (a / b) % 2 else (2 * a + b) / (2 * b)

/-! ## Duty Mapper (R111, R112) -/

/-- "sample > UPPER_THRESHOLD", inclusive by the parameter (R111). -/
def saturatesOn (P : Params) (sample : Nat) : Bool :=
  if P.thresholdsInclusive then decide (P.upperThreshold ≤ sample) else decide (P.upperThreshold < sample)

/-- "sample < LOWER_THRESHOLD", inclusive by the parameter (R111). -/
def saturatesOff (P : Params) (sample : Nat) : Bool :=
  if P.thresholdsInclusive then decide (sample ≤ P.lowerThreshold) else decide (sample < P.lowerThreshold)

/-- `MAP` (R111). The linear branch is exact: its sample lies above `MAP_MIN`, nothing wraps, the division truncates
(R112). -/
def mapToPercent (P : Params) (sample : Nat) : Nat :=
  if saturatesOn P sample then 100
  else if saturatesOff P sample then 0
  else ((sample - P.mapMin) * 100) / (P.mapMaxUsable - P.mapMin)

/-! ## Delay Translator (R121 to R127) -/

/-- `P2D` on 0..100 (R121 to R123): `raw` is signed, and clamped at 0 (decision D8). -/
def percentToDelay (P : Params) (p : Nat) : Option Nat :=
  if p = 0 then none
  else if p = 100 then some P.fullPowerDelayUs
  else
    let raw : Int := (P.halfPeriodUs : Int) - ((P.halfPeriodUs / 100 : Nat) * (p : Int) + P.detectorDelayUs)
    some (max raw 0).toNat

/-- The prescaler of a delay, with strict boundaries (R124). -/
def prescalerFor (P : Params) (d : Nat) : Prescaler :=
  if d < P.range8Us then .by8
  else if d < P.range64Us then .by64
  else .by256

/-- The rounded number of ticks, `round(d * F_CLK_HZ / (N * 1000000))` (R125). -/
def ticksFor (P : Params) (d : Nat) (n : Prescaler) : Nat :=
  roundQuotient P.roundMode (d * P.fClkHz) (divisor n * 1000000)

/-- `count(d, N)`: one less than the ticks, then clamped to 0..255 (R125). -/
def countFor (P : Params) (d : Nat) (n : Prescaler) : Nat :=
  (clamp ((ticksFor P d n : Int) - 1) 0 255).toNat

/-- `D2P` (R124, R126). -/
def delayToProgram (P : Params) (d : Nat) : TimerProgram where
  prescaler := prescalerFor P d
  count := BitVec.ofNat 8 (countFor P d (prescalerFor P d))

/-- `CALC` (R127); `none` is `refuse(percent out of range)` (R128). -/
def calcCommand (P : Params) (p : Nat) : Option TimerCommand :=
  if 100 < p then none
  else match percentToDelay P p with
    | none => some .stop
    | some d => some (.program (delayToProgram P d))

/-- `PULSE_PROGRAM = D2P(PULSE_US)` (R132, decision D10). -/
def pulseProgram (P : Params) : TimerProgram := delayToProgram P P.pulseUs

/-! ## The ports of the functions (R84), with the block's parameters -/

/-- The output port of `MAP`. -/
def mapPort (x : Sample) : Percent := BitVec.ofNat 7 (mapToPercent parameters x.toNat)

/-- The output port of `P2D` for a percent of 0..100; `none` is `dvalid = 0`. -/
def delayPort (p : Percent) : Option Delay := (percentToDelay parameters p.toNat).map (BitVec.ofNat 14)

/-- The output port of `D2P`. -/
def programPort (d : Delay) : TimerProgram := delayToProgram parameters d.toNat

/-- The output of `CALC` before it is written as a word. -/
def calcPort (p : Percent) : Option TimerCommand := calcCommand parameters p.toNat

end Sys2Proof.Machine
end

