-- ==== Sys2Proof/Machine/Ops.lean ====
section
/-! DEFINITION. The shared operations over the cells: outcomes, refusal, taking an event and returning from one, the
timer agent's tick, the Timer Driver's writes, the conversion request, reset. -/

namespace Sys2Proof.Machine

/-! ## Outcomes -/

/-- What a step of the block answers. -/
abbrev Result := Host.Outcome State Fault Refusal

/-- Go on from a next state; a fault or a refusal stays. -/
def andThen (r : Result) (f : State → Result) : Result :=
  match r with
  | .next s => f s
  | .fault e => .fault e
  | .refused e => .refused e

/-- The next state, if there is one. -/
def nextState (r : Result) : Option State :=
  match r with
  | .next s => some s
  | .fault _ => none
  | .refused _ => none

/-- The refusal, if there is one. -/
def refusalOf (r : Result) : Option Refusal :=
  match r with
  | .next _ => none
  | .fault _ => none
  | .refused e => some e

/-- `refuse(reason)`: no successor, and `REFUSED` is set in the state the refusal carries (R38, R128; log 9). -/
def refuse (reason : State → Refusal) (s : State) : Result := .refused (reason { s with REFUSED := true })

/-! ## Taking an event and returning from it (R217, R218) -/

/-- Trap entry: the selected pending flag is cleared, then `GIE <- 0`; "Nothing else is saved or changed" (R217). -/
def trapEntry (ev : Event) (s : State) : State := { clearPending ev s with GIE := false }

/-- Trap return: `GIE <- 1`, and there is nothing to restore (R218). -/
def trapReturn (s : State) : State := { s with GIE := true }

/-! ## The timer -/

/-- `T1`, one tick of the running timer: the tick that finds equality raises the flag, then the counter goes on (R195). -/
def timerTick (s : State) : State := { s with OCF := s.OCF || s.atMatch, TCNT := s.TCNT + 1#8 }

/-- The timer agent's step: a tick, if the clock runs (R195, R196). -/
def timerAgent (s : State) : State := if s.clockRuns then timerTick s else s

/-- Enter the critical section of `TPROG` (R142). -/
def tprogEnter (s : State) : State := { s with GIE := false }

/-- S1: disable the compare interrupt (R141). -/
def tprogS1 (s : State) : State := { s with OCIE := false, TDS := .s1 }

/-- S2: halt the clock (R141). -/
def tprogS2 (s : State) : State := { s with CS := .stopped, TDS := .s2 }

/-- S3: discard any pending compare match (R141). -/
def tprogS3 (s : State) : State := { s with OCF := false, TDS := .s3 }

/-- S4: set the compare target relative to the counter (R141, R144). -/
def tprogS4 (cc : Byte) (s : State) : State := { s with OCR := compareTarget s.TCNT cc, TDS := .s4 }

/-- S5: select the new prescaler; the clock runs again (R141). -/
def tprogS5 (n : Prescaler) (s : State) : State := { s with CS := clockOf n, TDS := .s5 }

/-- S6: re-enable the compare interrupt (R141). -/
def tprogS6 (s : State) : State := { s with OCIE := true, TDS := .s6 }

/-- Leave the critical section: the mask as it was saved, the sequencer idle (R141, R142). -/
def tprogLeave (saved : Bool) (s : State) : State := { s with GIE := saved, TDS := .idle }

/-- `TPROG(N, cc)`: the six writes in their normative order inside the lock (R141, R142). -/
def timerProgram (n : Prescaler) (cc : Byte) (s : State) : State :=
  tprogLeave s.GIE (tprogS6 (tprogS5 n (tprogS4 cc (tprogS3 (tprogS2 (tprogS1 (tprogEnter s)))))))

/-- `TSTOP()`: disable the compare interrupt, halt the clock; nothing else is written, and `TCNT` and `OCR` hold
(R145, R146; log 8). -/
def timerStop (s : State) : State := { s with OCIE := false, CS := .stopped }

/-- `TPROG` on the fields of a PROGRAM word: the other `cs` codes are reserved (R85, R147). -/
def programFields (cs : BitVec 3) (cc : Byte) (s : State) : Result :=
  match presc cs with
  | some n => .next (timerProgram n cc s)
  | none => refuse .reservedTcmd12 s

/-- `EXEC(w)`, the execution of a TCMD12 word by the Timer Driver (R147). -/
def execCommand (w : Tcmd12) (s : State) : Result :=
  if w = 0x000#12 then .next (timerStop s)
  else if w.getLsbD 11 then programFields (w.extractLsb' 8 3) (w.extractLsb' 0 8) s
  else refuse .reservedTcmd12 s

/-! ## The converter -/

/-- The conversion request: a request while busy changes nothing (R34, R174). -/
def requestConversion (s : State) : State := { s with ADBUSY := true }

/-- The converter completes with result `v` (R194). -/
def completeConversion (v : Sample) (s : State) : State :=
  { s with ADL := sampleLow v, ADH := sampleHigh v, ADBUSY := false, ADIF := true }

/-! ## Reset -/

/-- Every cell at its reset value, the four unspecified ones drawn (R40, R191). The output ports, the schedule and
the bench are no cells and stay; the drawn values are never drawn again (log 6). -/
def resetCells (s : State) : State :=
  { State.reset with
    TCNT := Config.drawByte s.draws
    OCR := Config.drawByte (s.draws + 1)
    ADL := Config.drawByte (s.draws + 2)
    ADH := Config.drawPair (s.draws + 3)
    draws := s.draws + 4
    ports := s.ports
    schedule := s.schedule
    bench := s.bench }

end Sys2Proof.Machine
end

