-- ==== Sys2Proof/Machine/Handlers.lean ====
section
/-! DEFINITION. The three event handlers' bodies (43_firing_fsm.md, 44_cycle_sequencer.md, 45_analog_latch.md). Dispatch
has already cleared the event's flag and `GIE` when a body runs (60_exceptions.md R217). -/

namespace Sys2Proof.Machine

/-- `H_ZC` (R171), its four steps in their normative order: output off, command from the latest sample, Armed, request. -/
def execHZc (s : State) : Result :=
  let off := { s with TRIG := false }
  match calcPort (mapPort off.AS) with
  | none => refuse .percentOutOfRange off
  | some c => andThen (execCommand (commandWord c) off) fun t => .next (requestConversion { t with CST := .armed })

/-- `H_CM` (R161): Armed asserts the output, arms the pulse program and goes to Firing; Firing deasserts the output. -/
def execHCm (s : State) : Result :=
  match s.CST with
  | .armed =>
    let pulse := pulseProgram parameters
    .next { timerProgram pulse.prescaler pulse.count { s with TRIG := true } with CST := .firing }
  | .firing => .next { s with TRIG := false }

/-- `H_CC` (R181): the low part is read first, then the high part, and nothing is filtered (R182, R183). -/
def execHCc (s : State) : Result :=
  let lo := s.ADL
  let hi := s.ADH
  .next { s with AS := assembleSample lo hi }

end Sys2Proof.Machine
end

