-- ==== Sys2Proof/Machine/Environment.lean ====
section
/-! DEFINITION. Dispatch and the stimulus operations (46_environment_ops.md). -/

namespace Sys2Proof.Machine

/-- The handler's body for an event (R212). -/
def runHandler (ev : Event) (s : State) : Result :=
  match ev with
  | .zeroCross => execHZc s
  | .timerCompare => execHCm s
  | .conversionComplete => execHCc s

/-- Serve one event: trap entry, the handler to completion, trap return, one atomic transition (R199). -/
def serveEvent (ev : Event) (s : State) : Result :=
  andThen (runHandler ev (trapEntry ev s)) fun t => .next (trapReturn t)

/-- `DISPATCH1` (R199). Where it is not enabled nothing happens (log 11). -/
def dispatchOne (s : State) : Result :=
  if s.GIE then
    match s.pendingEvent with
    | some ev => serveEvent ev s
    | none => .next s
  else .next s

/-- At most `fuel` rounds of `while GIE = 1 and EVT3 != 0b000: DISPATCH1` (R198). -/
def dispatchLoop : Nat → State → Result
  | 0, s => .next s
  | fuel + 1, s => if s.canDispatch then andThen (dispatchOne s) (dispatchLoop fuel) else .next s

/-- The loop of `RUN` "ends after at most three iterations" (R198; log 17). -/
def runAll (s : State) : Result := dispatchLoop 3 s

/-- `n` rounds of one timer tick, if the clock runs, and a `RUN` (R196). -/
def tickLoop : Nat → State → Result
  | 0, s => .next s
  | n + 1, s => andThen (runAll (timerAgent s)) (tickLoop n)

/-- `RST` (R191). -/
def execRst (s : State) : Result := .next (resetCells s)

/-- `START` (R192), a one-shot. -/
def execStart (s : State) : Result :=
  if s.HALTED then .next { requestConversion s with GIE := true, HALTED := false } else .next s

/-- `ZC` (R193). -/
def execZc (s : State) : Result := .next { s with ZCF := true }

/-- `ADC v` (R194): with no conversion in progress nothing can complete. -/
def execAdc (v : Sample) (s : State) : Result :=
  if s.ADBUSY then .next (completeConversion v s) else .next s

/-- `TICK n` (R196). -/
def execTick (n : BitVec 12) (s : State) : Result := tickLoop n.toNat s

/-- `CM` (R197). -/
def execCm (s : State) : Result := .next { s with OCF := true }

/-- `RUN` (R198). -/
def execRun (s : State) : Result := runAll s

end Sys2Proof.Machine
end

