-- ==== Sys2Proof/Machine/PureFunctions.lean ====
section
/-! DEFINITION. The pure functions `MAP`, `P2D`, `D2P`, `CALC` at their ports (30_encoding.md R84). None reads or writes a
cell; the result goes to the function's output port (log 1). -/

namespace Sys2Proof.Machine

/-- `MAP` (40_duty_mapper.md R110, R111). -/
def execMap (x : Sample) (s : State) : Result :=
  .next { s with ports := { s.ports with percentOut := mapPort x } }

/-- `P2D` (41_delay_translator.md R121 to R123); 101..127 are no PowerPercent (R128, log 10). -/
def execP2d (p : Percent) (s : State) : Result :=
  if p.toNat ≤ 100 then .next { s with ports := { s.ports with delayOut := delayPort p } }
  else refuse .percentOutOfRange s

/-- `D2P` (R124 to R126). -/
def execD2p (d : Delay) (s : State) : Result :=
  .next { s with ports := { s.ports with csOut := sel (programPort d).prescaler, ccOut := (programPort d).count } }

/-- `CALC` (R127, R128). -/
def execCalc (p : Percent) (s : State) : Result :=
  match calcPort p with
  | some c => .next { s with ports := { s.ports with tcmdOut := commandWord c } }
  | none => refuse .percentOutOfRange s

end Sys2Proof.Machine
end

