-- ==== Sys2Proof/Machine/TimerDriver.lean ====
section
/-! DEFINITION. The Timer Driver's commands `TPROG` and `TSTOP` (42_timer_driver.md). -/

namespace Sys2Proof.Machine

/-- `TPROG` (R141), on the fields of its word; a reserved `cs` refuses (R85, R147). -/
def execTprog (cs : BitVec 3) (cc : Byte) (s : State) : Result := programFields cs cc s

/-- `TSTOP` (R145). -/
def execTstop (s : State) : Result := .next (timerStop s)

end Sys2Proof.Machine
end

