-- ==== Sys2Proof/Machine/Dispatch.lean ====
section
/-! DEFINITION. The meaning of every operation, one arm a constructor. -/

namespace Sys2Proof.Machine

def exec (i : Instr) (s : State) : Host.Outcome State Fault Refusal :=
  match i with
  | .map x => Sys2Proof.Machine.execMap x s
  | .p2d p => Sys2Proof.Machine.execP2d p s
  | .d2p d => Sys2Proof.Machine.execD2p d s
  | .calcWord p => Sys2Proof.Machine.execCalc p s
  | .tprog cs cc => Sys2Proof.Machine.execTprog cs cc s
  | .tstop => Sys2Proof.Machine.execTstop s
  | .hZc => Sys2Proof.Machine.execHZc s
  | .hCm => Sys2Proof.Machine.execHCm s
  | .hCc => Sys2Proof.Machine.execHCc s
  | .rst => Sys2Proof.Machine.execRst s
  | .start => Sys2Proof.Machine.execStart s
  | .zc => Sys2Proof.Machine.execZc s
  | .adc v => Sys2Proof.Machine.execAdc v s
  | .tick n => Sys2Proof.Machine.execTick n s
  | .cm => Sys2Proof.Machine.execCm s
  | .run => Sys2Proof.Machine.execRun s

end Sys2Proof.Machine
end

