-- ==== Sys2Proof/Machine/Schedule.lean ====
section
/-! DEFINITION. What one entry of a schedule does (46_environment_ops.md R190, R200), what a word at a sub-block's port does,
and how a word is placed so that it runs next. -/

namespace Sys2Proof.Machine

/-- The refusal of a word that selects no operation (R85, R88). An empty event vector is no refusal, dispatch is then not
enabled (R199). -/
def refuseWord (e : DecodeError) (s : State) : Result :=
  match e with
  | .reservedTcmd12 => refuse .reservedTcmd12 s
  | .invalidStimulus => refuse .invalidStimulus s
  | .nothingPending => .next s

/-- Run what a decoder answered. -/
def runDecoded (r : Except DecodeError Instr) (s : State) : Result :=
  match r with
  | .ok i => exec i s
  | .error e => refuseWord e s

/-- What an entry does to the state it is taken from (R190): a stimulus word runs its operation, the dispatcher serves the
event that EVT3 selects, the timer agent ticks. -/
def runEntry (e : Entry) (s : State) : Result :=
  match e with
  | .stim w => runDecoded (decodeStim16 w) s
  | .dispatch => dispatchOne s
  | .tick => .next (timerAgent s)

/-- The assembled block's next step: the first entry of the schedule. Where nothing is scheduled the dispatcher steps, so
that a dispatch that stays enabled is taken (R200's weak fairness, log 2); where none is enabled the block idles: it "never
halts" and the idle context changes nothing (R201, R203; log 11). -/
def runScheduled (s : State) : Result :=
  match s.schedule with
  | [] => dispatchOne s
  | e :: rest => runEntry e { s with schedule := rest }

/-- Where a sub-block is driven alone its port's word runs; otherwise the assembled block steps (R190, log 13). -/
def runNext (s : State) : Result :=
  match s.bench with
  | [] => runScheduled s
  | w :: rest => runDecoded (decodePort w) { s with bench := rest }

/-- Place an entry before all others, in the assembled block. -/
def scheduleFirst (e : Entry) (s : State) : State := { s with schedule := e :: s.schedule, bench := [] }

/-- Place a word at its sub-block's port, before all others. -/
def benchFirst (w : PortWord) (s : State) : State := { s with bench := w :: s.bench }

/-- Make the flags read as the event vector `e`, with handlers unmasked: what a dispatch on that vector takes (R86, R199).
`OCIE` is touched only where bit 1 must read 1. -/
def withEventVector (e : Evt3) (s : State) : State :=
  { s with
    ZCF := e.getLsbD 2
    OCF := e.getLsbD 1
    OCIE := s.OCIE || e.getLsbD 1
    ADIF := e.getLsbD 0
    GIE := true }

/-- Place a code word so that the next step runs it. An event vector is no word of the schedule: the flags are set so that
they read as it, and a dispatch is scheduled (log 3). -/
def placeWord (cw : CodeWord) (s : State) : State :=
  match cw with
  | .port w => benchFirst w s
  | .stim16 w => scheduleFirst (.stim w) s
  | .evt3 e => scheduleFirst .dispatch (withEventVector e s)

/-- Place the table word of `nbits` bits so that the next step runs it; a number that is no table word places nothing. -/
def placeTableWord (s : State) (nbits w : Nat) : State :=
  match tableWord nbits w with
  | some cw => placeWord cw s
  | none => s

end Sys2Proof.Machine
end

