-- ==== Sys2Proof/Machine/Step.lean ====
section
/-! DEFINITION. One step: the next entry of the schedule, or the next word of a sub-block driven alone. There is no fetch and no program counter
(10_state.md R24). -/

namespace Sys2Proof.Machine

/-- One atomic transition (20_memory.md R70, 46_environment_ops.md R200). -/
def step (s : State) : Host.Outcome State Fault Refusal := runNext s

/-- `s` with a table word placed where the next step takes its operation from (log 3). -/
def State.withFetchWord (s : State) (nbits w : Nat) : State := placeTableWord s nbits w

end Sys2Proof.Machine
end

