-- ==== Sys2Proof/Safety.lean ====
section
/-! DEFINITION. What counts as a safe state and a safe run, in the terms the statements use. -/

namespace Sys2Proof.Machine

/-- No handler is waiting: `GIE = 0` or EVT3 = 0b000 (46_environment_ops.md R201). -/
def State.quiescent (s : State) : Bool := !s.canDispatch

/-- The sequencing invariant. An Armed controller holds the output off (R164, R171); the compare interrupt is enabled
exactly while a program runs the clock (R141, R145, R247); handlers are masked exactly before `START`, between steps
(R31, R213); the Timer Driver is idle between steps (R36); nothing that goes on carries the mark of a refusal (R38). -/
structure State.Sequenced (s : State) : Prop where
  armed_off : s.CST = .armed → s.TRIG = false
  enabled_iff_running : s.OCIE = s.clockRuns
  masked_iff_halted : s.GIE = !s.HALTED
  driver_idle : s.TDS = .idle
  not_refused : s.REFUSED = false

/-- An asserted output is always about to end: the controller is in Firing and a program at prescaler 8, which the pulse
program is, runs with its interrupt enabled (R132, R160, R163). -/
structure State.PulseEnds (s : State) : Prop where
  firing : s.TRIG = true → s.CST = .firing
  enabled : s.TRIG = true → s.OCIE = true
  clocked : s.TRIG = true → s.CS = .div8

/-- The next step does not drive the Timer Driver's port from outside (R190, log 13). -/
def State.noDirectCommand (s : State) : Bool :=
  match s.bench with
  | .tcmd12 _ :: _ => false
  | _ => true

/-- The next step of the assembled block is the dispatcher's, scheduled or because nothing is, with `rest` left to come
(R200, log 2). -/
structure State.DispatcherNext (s : State) (rest : List Entry) : Prop where
  assembled : s.bench = []
  turn : s.schedule = .dispatch :: rest ∨ s.schedule = [] ∧ rest = []

/-- Two states differ at most in the counter and the compare register, and there only in what the counter's origin decides:
while the clock runs, the distance from counter to compare register is the same (R26, R146, R150). -/
structure State.SameButTimerOrigin (s t : State) : Prop where
  cells : { t with TCNT := s.TCNT, OCR := s.OCR } = s
  distance : s.clockRuns = true → s.OCR - s.TCNT = t.OCR - t.TCNT

/-- The state before any `START` in which the block is inert (R241). -/
structure State.Inert (s : State) : Prop where
  masked : s.GIE = false
  stopped : s.CS = .stopped
  not_converting : s.ADBUSY = false

/-! ## Open runs (R200) -/

/-- The entry is a point at which an enabled dispatch is taken: one dispatch, a `RUN`, or a `TICK` of at least one round
(R196, R198, R199). -/
def dispatches (e : Entry) : Bool :=
  match e with
  | .stim w =>
    match decodeStim16 w with
    | .ok .run => true
    | .ok (.tick n) => n != 0#12
    | _ => false
  | .dispatch => true
  | .tick => false

/-- `states` is a run of the open model: at each moment some agent takes one atomic step, and nothing says which (R190,
R200). -/
def OpenRun (steps : Nat → Entry) (states : Nat → State) : Prop :=
  ∀ n, runEntry (steps n) (states n) = .next (states (n + 1))

/-- Weak fairness of the dispatcher: "a dispatch that stays enabled is eventually taken" (R200). -/
def WeaklyFair (steps : Nat → Entry) (states : Nat → State) : Prop :=
  ∀ n, (∀ m, n ≤ m → (states m).canDispatch = true) → ∃ m, n ≤ m ∧ dispatches (steps m) = true

end Sys2Proof.Machine
end

