-- ==== Sys2Proof/WellFormed.lean ====
section
/-! DEFINITION. Which operations have operands inside their stated domains. -/

namespace Sys2Proof

/-- A PowerPercent is 0..100; the other values of the 7-bit port are not (R25, R128). -/
def percentInDomain (p : Percent) : Bool := decide (p.toNat ≤ 100)

/-- The legal `cs` fields of a PROGRAM word: 0b010, 0b011, 0b100 (R85). -/
def programSelectLegal (cs : BitVec 3) : Bool := cs == 0b010#3 || cs == 0b011#3 || cs == 0b100#3

/-- The operands lie in the operation's domain. `D2P` has no check: 10000..16383 saturate (R126). -/
def Instr.wellFormed : Instr → Bool
  | .p2d p => percentInDomain p
  | .calcWord p => percentInDomain p
  | .tprog cs _ => programSelectLegal cs
  | .map _ => true
  | .d2p _ => true
  | .tstop => true
  | .hZc => true
  | .hCm => true
  | .hCc => true
  | .rst => true
  | .start => true
  | .zc => true
  | .adc _ => true
  | .tick _ => true
  | .cm => true
  | .run => true

end Sys2Proof
end

