-- ==== Sys2Proof/Certificates/Slice0/Obligations.lean ====
section
/-! DEFINITION. The statements for the provers. The block has no memory (20_memory.md R60) and no program counter
(10_state.md R24), so a next state written as a record update of the state before IS its frame: every cell, port, schedule
entry and bench word it does not name is unchanged. The ports, draws, schedule and bench are the model's own fields: what a
frame says of them is the model's choice (logs 1, 6, 2 and 13) and no rule of the spec. -/

open Sys2Proof Sys2Proof.Machine

/-! ## Words -/

/-- Every operation with operands in its domain is the one its own word selects (30_encoding.md R84 to R92). -/
def Obligations.EncodedOperationDecodesToItself : Prop :=
  ∀ i : Instr, i.wellFormed = true → decode (encode i) = .ok i

/-- Where a word at a port, or a stimulus word, selects an operation, it is that operation's word: no bit of an accepted word
is ignored. -/
def Obligations.DecodedWordEncodesBack : Prop :=
  (∀ (w : PortWord) (i : Instr), decode (.port w) = .ok i → encode i = .port w) ∧
  (∀ (w : Stim16) (i : Instr), decode (.stim16 w) = .ok i → encode i = .stim16 w)

/-- The STIM16 decoder is the seven rows of the opcode table, each by its mask and match, and `invalid` elsewhere (R87,
R88, the spec's decision D17). -/
def Obligations.StimulusRowsSelectByMaskAndMatch : Prop :=
  ∀ w : Stim16,
    (decodeStim16 w = .ok .rst ↔ w &&& 0xFFFF#16 = 0x0000#16) ∧
    (decodeStim16 w = .ok .start ↔ w &&& 0xFFFF#16 = 0x1000#16) ∧
    (decodeStim16 w = .ok .zc ↔ w &&& 0xFFFF#16 = 0x2000#16) ∧
    (∀ v, decodeStim16 w = .ok (.adc v) ↔ w &&& 0xFC00#16 = 0x3000#16 ∧ w.extractLsb' 0 10 = v) ∧
    (∀ n, decodeStim16 w = .ok (.tick n) ↔ w &&& 0xF000#16 = 0x4000#16 ∧ w.extractLsb' 0 12 = n) ∧
    (decodeStim16 w = .ok .cm ↔ w &&& 0xFFFF#16 = 0x5000#16) ∧
    (decodeStim16 w = .ok .run ↔ w &&& 0xFFFF#16 = 0x6000#16) ∧
    (decodeStim16 w = .error .invalidStimulus ↔
      ¬(w = 0x0000#16 ∨ w = 0x1000#16 ∨ w = 0x2000#16 ∨ w &&& 0xFC00#16 = 0x3000#16 ∨
        w &&& 0xF000#16 = 0x4000#16 ∨ w = 0x5000#16 ∨ w = 0x6000#16))

/-- The legal command words are 0x000 and 0xA00..0xCFF, and their fields are `cs` = bits 10:8 and `cc` = bits 7:0 (R85,
the spec's decision D16). That every other word with bit 11 set, which R85 reserves, decodes to `TPROG` with its fields
too is the model's choice (log 14): it is `TPROG`'s meaning that refuses it. -/
def Obligations.CommandWordsLegalRanges : Prop :=
  ∀ w : Tcmd12,
    ((∃ i, decodeTcmd12 w = .ok i ∧ i.wellFormed = true) ↔ w = 0x000#12 ∨ (0xA00 ≤ w.toNat ∧ w.toNat ≤ 0xCFF)) ∧
    (∀ cs cc, decodeTcmd12 w = .ok (.tprog cs cc) ↔ w.toNat = 0x800 + cs.toNat * 256 + cc.toNat)

/-- EVT3 is read off the flags, and its rows select by mask and match: zero-cross over timer-compare over
conversion-complete (R86, R215, the spec's decision D19). -/
def Obligations.EventVectorSelectsByPriority : Prop :=
  (∀ s : State, s.evt3.getLsbD 2 = s.ZCF ∧ s.evt3.getLsbD 1 = (s.OCF && s.OCIE) ∧ s.evt3.getLsbD 0 = s.ADIF) ∧
  (∀ e : Evt3,
    (decodeEvt3 e = .ok .hZc ↔ e &&& 0b100#3 = 0b100#3) ∧
    (decodeEvt3 e = .ok .hCm ↔ e &&& 0b110#3 = 0b010#3) ∧
    (decodeEvt3 e = .ok .hCc ↔ e &&& 0b111#3 = 0b001#3) ∧
    (decodeEvt3 e = .error .nothingPending ↔ e = 0b000#3))

/-- Words written out from the spec's tables decode to the operations they stand for. -/
def Obligations.WrittenOutWordsDecode : Prop :=
  decode (.stim16 0x3258#16) = .ok (.adc 600#10) ∧
  decode (.stim16 0x404E#16) = .ok (.tick 78#12) ∧
  decode (.stim16 0x6000#16) = .ok .run ∧
  decode (.stim16 0x3400#16) = .error .invalidStimulus ∧
  decode (.port (.tcmd12 0xC4E#12)) = .ok (.tprog 0b100#3 78#8) ∧
  decode (.port (.tcmd12 0x000#12)) = .ok .tstop ∧
  decode (.port (.tcmd12 0x200#12)) = .error .reservedTcmd12 ∧
  decode (.port (.mapPort 0b1001011000#10)) = .ok (.map 600#10) ∧
  decode (.evt3 0b110#3) = .ok .hZc ∧
  decode (.evt3 0b011#3) = .ok .hCm

/-- The six pseudo-operations are exact abbreviations of stimulus words (R94, the spec's decision D17). -/
def Obligations.PseudoOperationsExpand : Prop :=
  (expandPseudo .zcr).map encode = [.stim16 0x2000#16, .stim16 0x6000#16] ∧
  (∀ v : Sample, (expandPseudo (.adcr v)).map encode =
    [.stim16 (0x3000#16 + v.zeroExtend 16), .stim16 0x6000#16]) ∧
  (expandPseudo .cmr).map encode = [.stim16 0x5000#16, .stim16 0x6000#16] ∧
  (expandPseudo .nop).map encode = [.stim16 0x4000#16] ∧
  (∀ n : BitVec 12, (expandPseudo (.wait n)).map encode = [.stim16 (0x4000#16 + n.zeroExtend 16)]) ∧
  (expandPseudo .boot).map encode = [.stim16 0x0000#16, .stim16 0x1000#16]

/-! ## One step -/

/-- In the assembled block a step at a stimulus word that selects an operation is that operation, on the state with the word
taken; where a sub-block is driven alone, a step at its port's word is the operation that word selects. The schedule and
the bench are the model's own (logs 2 and 13): the spec has the pure functions and the commands run only inside handlers
of the assembled block (R190), and that their ports can be driven on their own is the model's choice. -/
def Obligations.StepRunsPresentedOperation : Prop :=
  ∀ (s : State) (i : Instr),
    (∀ (w : Stim16) (rest : List Entry), s.bench = [] → s.schedule = .stim w :: rest → decode (.stim16 w) = .ok i →
      step s = exec i { s with schedule := rest }) ∧
    (∀ (w : PortWord) (rest : List PortWord), s.bench = w :: rest → decode (.port w) = .ok i →
      step s = exec i { s with bench := rest })

/-- A step at an enabled dispatch selects the handler by priority, clears its flag and `GIE`, runs it to completion, and
sets `GIE`: one transition (46_environment_ops.md R199). The dispatcher's turn is a scheduled dispatch, or any step with
nothing scheduled (log 2). -/
def Obligations.StepDispatchesByPriority : Prop :=
  ∀ (s : State) (rest : List Entry), s.DispatcherNext rest → s.GIE = true →
    (s.ZCF = true →
      step s = andThen (exec .hZc { s with schedule := rest, ZCF := false, GIE := false })
        fun t => .next { t with GIE := true }) ∧
    (s.ZCF = false → s.OCF = true → s.OCIE = true →
      step s = andThen (exec .hCm { s with schedule := rest, OCF := false, GIE := false })
        fun t => .next { t with GIE := true }) ∧
    (s.ZCF = false → (s.OCF && s.OCIE) = false → s.ADIF = true →
      step s = andThen (exec .hCc { s with schedule := rest, ADIF := false, GIE := false })
        fun t => .next { t with GIE := true })

/-- The vector decodes to the handler that a step at an enabled dispatch runs, between trap entry and trap return. The
dispatcher's turn is a scheduled dispatch, or any step with nothing scheduled, which is the model's choice (log 2). -/
def Obligations.StepDispatchRunsDecodedHandler : Prop :=
  ∀ (s : State) (rest : List Entry) (i : Instr), s.DispatcherNext rest → s.GIE = true →
    decode (.evt3 s.evt3) = .ok i →
    ∃ ev, i = handlerOf ev ∧ selectEvent s.evt3 = some ev ∧
      step s = andThen (exec i (trapEntry ev { s with schedule := rest })) fun t => .next (trapReturn t)

/-- A step at a timer tick: while the clock runs, the tick that finds the counter equal to the compare register raises the
flag, and the counter goes on, wrapping; while it is stopped nothing changes (R195, the spec's decision D14; log 11). -/
def Obligations.StepTicksRunningTimer : Prop :=
  ∀ (s : State) (rest : List Entry), s.bench = [] → s.schedule = .tick :: rest →
    (s.CS ≠ .stopped →
      step s = .next { s with schedule := rest, OCF := s.OCF || decide (s.TCNT = s.OCR), TCNT := s.TCNT + 1#8 }) ∧
    (s.CS = .stopped → step s = .next { s with schedule := rest })

/-- The model's choice (logs 2 and 11): where the dispatcher has its turn and no dispatch is enabled (R199), nothing changes;
so with nothing scheduled and nothing enabled the block idles unchanged. -/
def Obligations.StepIdlesWhenNothingIsEnabled : Prop :=
  ∀ (s : State) (rest : List Entry), s.DispatcherNext rest → (s.GIE = false ∨ s.evt3 = 0b000#3) →
    step s = .next { s with schedule := rest }

/-- The dispatcher is not starved (R200: "a dispatch that stays enabled is eventually taken"; the model's choice of when,
log 2): once the scheduled steps are used up, the next step serves the event that is pending and enabled, if one is. -/
def Obligations.ScheduleEndsWithDispatch : Prop :=
  ∀ s t : State, s.bench = [] → Host.Core.run Sys2Proof.core s.schedule.length s = .next t →
    t.bench = [] ∧ t.schedule = [] ∧
    (t.canDispatch = true →
      ∃ ev u, t.pendingEvent = some ev ∧ exec (handlerOf ev) (trapEntry ev t) = .next u ∧ step t = .next (trapReturn u)) ∧
    (t.canDispatch = false → step t = .next t)

/-- On every weakly fair interleaving of the agents (R190, R200) without a reset: where some handler is pending and enabled,
a dispatch is eventually taken while some handler is still pending and enabled. Which one it serves is the priority's
choice; it need not be the one that was pending first. -/
def Obligations.FairDispatcherServesPendingEvent : Prop :=
  ∀ (steps : Nat → Entry) (states : Nat → State), OpenRun steps states → WeaklyFair steps states →
    (∀ n, steps n ≠ .stim 0x0000#16) →
    ∀ n, (states n).canDispatch = true → ∃ m, n ≤ m ∧ (states m).canDispatch = true ∧ dispatches (steps m) = true

/-- In the assembled block the Timer Driver's commands run only inside handlers (R190, the spec's decisions D1 and D17): but
for a reset, the Timer Driver's cells change only in a step that takes a dispatch with handlers unmasked. Two clauses are
the model's choice: that no step of the assembled block leaves a word on the bench (log 13), and that no such step changes
the model's field of output ports, which holds the words of functions driven on their own and is not written where a
handler calls one (log 1). -/
def Obligations.FunctionsAndCommandsRunOnlyInHandlers : Prop :=
  ∀ s t : State, s.bench = [] → step s = .next t →
    t.bench = [] ∧ t.ports = s.ports ∧
    (s.schedule.head? ≠ some (.stim 0x0000#16) →
      (t.OCIE ≠ s.OCIE ∨ t.CS ≠ s.CS ∨ t.OCR ≠ s.OCR ∨ t.TDS ≠ s.TDS) →
      s.GIE = true ∧ ∀ e, s.schedule.head? = some e → dispatches e = true)

/-- Reserved command words and invalid stimulus words have no successor, and `REFUSED` is set where the refusal shows the
state (R85, R88, R38, the spec's decisions D16 and D17; log 9). A command word is handed to the Timer Driver's port alone
(log 13). -/
def Obligations.StepRefusesReservedWords : Prop :=
  ∀ s : State,
    (∀ (w : Tcmd12) (rest : List PortWord), s.bench = .tcmd12 w :: rest → w ≠ 0x000#12 →
      (w.toNat < 0xA00 ∨ 0xCFF < w.toNat) →
      step s = .refused (.reservedTcmd12 { s with bench := rest, REFUSED := true })) ∧
    (∀ (w : Stim16) (rest : List Entry), s.bench = [] → s.schedule = .stim w :: rest →
      decodeStim16 w = .error .invalidStimulus →
      step s = .refused (.invalidStimulus { s with schedule := rest, REFUSED := true }))

/-- A placed table word is what the next step runs (the model's interface, logs 3, 4 and 13): the operation of a port's word
on the state itself, a stimulus on the assembled block, a handler between trap entry and trap return on the assembled block
whose flags read as its vector. -/
def Obligations.PlacedTableWordRunsNext : Prop :=
  ∀ (s : State) (nbits w : Nat) (i : Instr), decodeTableWord nbits w = some i →
    (∀ p, encode i = .port p → step (s.withFetchWord nbits w) = exec i s) ∧
    (∀ v, encode i = .stim16 v → step (s.withFetchWord nbits w) = exec i { s with bench := [] }) ∧
    (∀ ev, i = handlerOf ev →
      step (s.withFetchWord nbits w) =
        andThen (exec i (trapEntry ev (withEventVector (BitVec.ofNat 3 w) { s with bench := [] })))
          fun t => .next (trapReturn t))

/-! ## The pure functions -/

/-- `MAP` (40_duty_mapper.md R111, R112, the spec's decisions D3 and D4): thresholds inclusive, truncating division. -/
def Obligations.MapSaturatesOrInterpolates : Prop :=
  ∀ (x : Sample) (s : State),
    let percent : Percent :=
      if 941 ≤ x.toNat then 100#7
      else if x.toNat ≤ 220 then 0#7
      else BitVec.ofNat 7 ((x.toNat - 205) * 100 / 818)
    exec (.map x) s = .next { s with ports := { s.ports with percentOut := percent } }

/-- The result of `MAP` is a percent of 0..100, it is monotone in the sample, and its image is exactly {0, ..., 89, 100}
(R113, derived there from R111). -/
def Obligations.MapIsMonotoneOntoItsImage : Prop :=
  ∀ (s : State),
    (∀ x y t u, exec (.map x) s = .next t → exec (.map y) s = .next u → x.toNat < y.toNat →
      t.ports.percentOut.toNat ≤ u.ports.percentOut.toNat) ∧
    (∀ p : Nat, (∃ x t, exec (.map x) s = .next t ∧ t.ports.percentOut.toNat = p) ↔ p ≤ 89 ∨ p = 100)

/-- Zero percent yields no program: `P2D(0)` is none and not 9000, `CALC(0)` is STOP, and a zero-cross whose sample maps to
0 stops the timer instead of arming it (41_delay_translator.md R123). That the handler leaves the model's output-port field
as it was is the model's choice (log 1). -/
def Obligations.ZeroPercentStopsTheTimer : Prop :=
  ∀ s : State,
    exec (.p2d 0#7) s = .next { s with ports := { s.ports with delayOut := none } } ∧
    exec (.calcWord 0#7) s = .next { s with ports := { s.ports with tcmdOut := 0x000#12 } } ∧
    (mapPort s.AS = 0#7 →
      exec .hZc s = .next { s with TRIG := false, OCIE := false, CS := .stopped, CST := .armed, ADBUSY := true })

/-- `P2D` on 0..100: none at 0, the open `FULL_POWER_DELAY_US` at 100, 9000 - 100p between, held at 0 above 90 (R121 to
R123, the spec's decisions D5, D8, D9). It holds for every value of the open parameter. -/
def Obligations.PercentToDelayResult : Prop :=
  ∀ (p : Percent) (s : State), p.toNat ≤ 100 →
    let delay : Option Delay :=
      if p.toNat = 0 then none
      else if p.toNat = 100 then some (BitVec.ofNat 14 Config.fullPowerDelay.val)
      else if p.toNat ≤ 90 then some (BitVec.ofNat 14 (9000 - 100 * p.toNat))
      else some 0#14
    exec (.p2d p) s = .next { s with ports := { s.ports with delayOut := delay } }

/-- `D2P`: the prescaler by strict boundaries and the count of that prescaler (R124). -/
def Obligations.DelayToProgramStrictBoundaries : Prop :=
  ∀ (d : Delay) (s : State),
    (d.toNat < 425 → exec (.d2p d) s = .next { s with ports := { s.ports with
      csOut := 0b010#3, ccOut := BitVec.ofNat 8 (countFor parameters d.toNat .by8) } }) ∧
    (425 ≤ d.toNat → d.toNat < 3400 → exec (.d2p d) s = .next { s with ports := { s.ports with
      csOut := 0b011#3, ccOut := BitVec.ofNat 8 (countFor parameters d.toNat .by64) } }) ∧
    (3400 ≤ d.toNat → exec (.d2p d) s = .next { s with ports := { s.ports with
      csOut := 0b100#3, ccOut := BitVec.ofNat 8 (countFor parameters d.toNat .by256) } })

/-- The compare count: the exact quotient rounded once, half up, less 1, within 0..255, in the integer forms of R125 (the
spec's decisions D6 and D7). The subtraction on natural numbers stops at 0, which is the lower clamp. -/
def Obligations.CompareCountIntegerForms : Prop :=
  ∀ d : Nat,
    countFor parameters d .by8 = min ((6 * d + 5) / 10 - 1) 255 ∧
    countFor parameters d .by64 = min ((3 * d + 20) / 40 - 1) 255 ∧
    countFor parameters d .by256 = min ((3 * d + 80) / 160 - 1) 255

/-- Inside FiringDelay the upper clamp never acts; from 13627 upward the count is 255 (R126, the spec's decision D11). -/
def Obligations.CompareCountSaturatesOnlyOutOfDomain : Prop :=
  ∀ (d : Delay) (s t : State), exec (.d2p d) s = .next t →
    (d.toNat < 425 → t.ports.ccOut.toNat ≤ 253) ∧
    (425 ≤ d.toNat → d.toNat < 3400 → t.ports.ccOut.toNat ≤ 254) ∧
    (3400 ≤ d.toNat → d.toNat ≤ 9999 → t.ports.ccOut.toNat ≤ 186) ∧
    (3400 ≤ d.toNat → d.toNat < 13627 → t.ports.ccOut.toNat = (3 * d.toNat + 80) / 160 - 1) ∧
    (13627 ≤ d.toNat → t.ports.csOut = 0b100#3 ∧ t.ports.ccOut = 255#8)

/-- `CALC`: STOP at 0, the program of the firing delay at 1..99, the program of the open full-power delay at 100 (R127, the
spec's decisions D8, D9, D16). -/
def Obligations.CalcCommandResult : Prop :=
  ∀ (p : Percent) (s : State), p.toNat ≤ 100 →
    let word : Tcmd12 :=
      if p.toNat = 0 then 0x000#12
      else if p.toNat = 100 then commandWord (.program (delayToProgram parameters Config.fullPowerDelay.val))
      else commandWord (.program (delayToProgram parameters (9000 - 100 * p.toNat)))
    exec (.calcWord p) s = .next { s with ports := { s.ports with tcmdOut := word } }

/-- The shape of the table of `CALC` (R129, derived there): the prescaler falls from 256 to 64 to 8, inside each range the
count falls strictly, and 90..99 are 0xA00. -/
def Obligations.CalcTableShape : Prop :=
  ∀ (p q : Percent) (s t u : State), exec (.calcWord p) s = .next t → exec (.calcWord q) s = .next u →
    (1 ≤ p.toNat → p.toNat ≤ 56 → 0xC3F ≤ t.ports.tcmdOut.toNat ∧ t.ports.tcmdOut.toNat ≤ 0xCA6) ∧
    (57 ≤ p.toNat → p.toNat ≤ 85 → 0xB25 ≤ t.ports.tcmdOut.toNat ∧ t.ports.tcmdOut.toNat ≤ 0xBF7) ∧
    (86 ≤ p.toNat → p.toNat ≤ 89 → 0xA3B ≤ t.ports.tcmdOut.toNat ∧ t.ports.tcmdOut.toNat ≤ 0xAEF) ∧
    (90 ≤ p.toNat → p.toNat ≤ 99 → t.ports.tcmdOut = 0xA00#12) ∧
    (1 ≤ p.toNat → p.toNat < q.toNat → q.toNat ≤ 90 → u.ports.tcmdOut.toNat < t.ports.tcmdOut.toNat)

/-- `CALC` never produces a reserved word, and yields STOP for zero percent only (R85, R127, both derived there), whatever
the open full-power delay is. -/
def Obligations.CalcNeverProducesReservedWord : Prop :=
  ∀ (p : Percent) (s t : State), exec (.calcWord p) s = .next t →
    ∃ i, decodeTcmd12 t.ports.tcmdOut = .ok i ∧ i.wellFormed = true ∧ (i = .tstop ↔ p.toNat = 0)

/-- 101..127 are no PowerPercent: `P2D` and `CALC` refuse, and `REFUSED` is set in the state shown (R128, the spec's
decision D12; that `P2D` refuses too is DEDUCED, log 10). -/
def Obligations.PercentAboveHundredRefused : Prop :=
  ∀ (p : Percent) (s : State), 100 < p.toNat →
    exec (.p2d p) s = .refused (.percentOutOfRange { s with REFUSED := true }) ∧
    exec (.calcWord p) s = .refused (.percentOutOfRange { s with REFUSED := true })

/-! ## The Timer Driver -/

/-- `TPROG`: its six writes in their normative order under the lock, what `TDS` reads after each, and the state it leaves,
with `TCNT` unchanged and `GIE` as before (42_timer_driver.md R141). -/
def Obligations.ProgramWritesInNormativeOrder : Prop :=
  ∀ (n : Prescaler) (cc : Byte) (s : State),
    let a1 := tprogS1 (tprogEnter s)
    let a2 := tprogS2 a1
    let a3 := tprogS3 a2
    let a4 := tprogS4 cc a3
    let a5 := tprogS5 n a4
    let a6 := tprogS6 a5
    a1 = { s with GIE := false, OCIE := false, TDS := .s1 } ∧
    a2 = { a1 with CS := .stopped, TDS := .s2 } ∧
    a3 = { a2 with OCF := false, TDS := .s3 } ∧
    a4 = { a3 with OCR := s.TCNT + cc, TDS := .s4 } ∧
    a5 = { a4 with CS := clockOf n, TDS := .s5 } ∧
    a6 = { a5 with OCIE := true, TDS := .s6 } ∧
    exec (.tprog (sel n) cc) s = .next { a6 with GIE := s.GIE, TDS := .idle } ∧
    exec (.tprog (sel n) cc) s = .next { s with
      OCIE := true, CS := clockOf n, OCF := false, OCR := s.TCNT + cc, TDS := .idle }

/-- The `cs` codes without a prescaler refuse (R85, R147, the spec's decision D16). -/
def Obligations.ProgramWithReservedSelectRefused : Prop :=
  ∀ (cs : BitVec 3) (cc : Byte) (s : State), cs ≠ 0b010#3 → cs ≠ 0b011#3 → cs ≠ 0b100#3 →
    exec (.tprog cs cc) s = .refused (.reservedTcmd12 { s with REFUSED := true })

/-- A tick that falls between two of the six writes ends as a tick before the command (before S2), as no tick (S2 to S5),
or as a tick after it (after S5), so nothing is lost by taking the command as one transition (R143, derived there). -/
def Obligations.TickInsideProgramIsHarmless : Prop :=
  ∀ (n : Prescaler) (cc : Byte) (s : State),
    let run4 := fun t => tprogS6 (tprogS5 n (tprogS4 cc t))
    tprogLeave s.GIE (run4 (tprogS3 (tprogS2 (tprogS1 (timerAgent (tprogEnter s)))))) =
      timerProgram n cc (timerAgent s) ∧
    tprogLeave s.GIE (run4 (tprogS3 (tprogS2 (timerAgent (tprogS1 (tprogEnter s)))))) =
      timerProgram n cc (timerAgent s) ∧
    tprogLeave s.GIE (run4 (tprogS3 (timerAgent (tprogS2 (tprogS1 (tprogEnter s)))))) = timerProgram n cc s ∧
    tprogLeave s.GIE (run4 (timerAgent (tprogS3 (tprogS2 (tprogS1 (tprogEnter s)))))) = timerProgram n cc s ∧
    tprogLeave s.GIE (tprogS6 (tprogS5 n (timerAgent (tprogS4 cc (tprogS3 (tprogS2 (tprogS1 (tprogEnter s)))))))) =
      timerProgram n cc s ∧
    tprogLeave s.GIE (tprogS6 (timerAgent (tprogS5 n (tprogS4 cc (tprogS3 (tprogS2 (tprogS1 (tprogEnter s)))))))) =
      timerAgent (timerProgram n cc s) ∧
    tprogLeave s.GIE (timerAgent (tprogS6 (tprogS5 n (tprogS4 cc (tprogS3 (tprogS2 (tprogS1 (tprogEnter s)))))))) =
      timerAgent (timerProgram n cc s)

/-- After `TPROG(N, cc)` the flag is down for `cc` ticks and up at exactly the `(cc + 1)`-th, from every counter value
(R150, derived there, with the spec's decision D14). -/
def Obligations.MatchAtTickCountPlusOne : Prop :=
  ∀ (n : Prescaler) (cc : Byte) (s t : State), exec (.tprog (sel n) cc) s = .next t →
    (∀ k : Nat, k ≤ cc.toNat → (Nat.iterate timerAgent k t).OCF = false) ∧
    (Nat.iterate timerAgent (cc.toNat + 1) t).OCF = true ∧
    (Nat.iterate timerAgent (cc.toNat + 1) t).TCNT = s.TCNT + cc + 1#8

/-- `TSTOP` writes `OCIE` and `CS` and nothing else; a pending match stays pending (R145). That `TCNT` and `OCR` hold is
this rule's own word; no other statement relies on them after a stop (R146, log 8). -/
def Obligations.StopDisablesAndHalts : Prop :=
  ∀ s : State, exec .tstop s = .next { s with OCIE := false, CS := .stopped }

/-- Both commands are idempotent, and a `TPROG` after a `TPROG` replaces the earlier program completely (R148, derived
there). -/
def Obligations.LaterCommandReplacesEarlier : Prop :=
  (∀ s t : State, exec .tstop s = .next t → exec .tstop t = .next t) ∧
  (∀ (n : Prescaler) (cc : Byte) (s t : State), exec (.tprog (sel n) cc) s = .next t →
    exec (.tprog (sel n) cc) t = .next t) ∧
  (∀ (m n : Prescaler) (dd cc : Byte) (s t : State), exec (.tprog (sel m) dd) s = .next t →
    exec (.tprog (sel n) cc) t = exec (.tprog (sel n) cc) s)

/-! ## The handlers -/

/-- `H_CM`: from Armed it asserts the output, runs `TPROG(8, 149)` and goes to Firing; from Firing it deasserts the output
and does nothing else; a step at an enabled dispatch selects it where `e[2:1] = 0b01`, with `OCF` and `GIE` already cleared
(43_firing_fsm.md R161). -/
def Obligations.CompareMatchHandlerTransition : Prop :=
  ∀ s : State,
    (s.CST = .armed → exec .hCm s = .next { s with
      TRIG := true, OCIE := true, CS := .div8, OCF := false, OCR := s.TCNT + 149#8, TDS := .idle, CST := .firing }) ∧
    (s.CST = .firing → exec .hCm s = .next { s with TRIG := false }) ∧
    (∀ rest, s.bench = [] → s.schedule = .dispatch :: rest → s.GIE = true → s.evt3.extractLsb' 1 2 = 0b01#2 →
      step s = andThen (exec .hCm { s with schedule := rest, OCF := false, GIE := false })
        fun t => .next { t with GIE := true })

/-- `H_ZC`: output off, then `TSTOP` where the latest sample maps to zero percent and `TPROG` of the program of its firing
delay otherwise, then Armed, then the conversion request; it always completes. A step at an enabled dispatch selects it
where `e[2] = 1`, with `ZCF` and `GIE` already cleared (44_cycle_sequencer.md R171). That the handler leaves the model's
output-port field as it was is the model's choice (log 1). -/
def Obligations.ZeroCrossHandlerFourSteps : Prop :=
  ∀ s : State,
    let p := mapToPercent parameters s.AS.toNat
    (percentToDelay parameters p = none ↔ p = 0) ∧
    (percentToDelay parameters p = none →
      exec .hZc s = .next { s with TRIG := false, OCIE := false, CS := .stopped, CST := .armed, ADBUSY := true }) ∧
    (∀ d, percentToDelay parameters p = some d →
      exec .hZc s = .next { s with
        TRIG := false, OCIE := true, CS := clockOf (delayToProgram parameters d).prescaler, OCF := false
        OCR := s.TCNT + (delayToProgram parameters d).count, TDS := .idle, CST := .armed, ADBUSY := true }) ∧
    (∀ rest, s.bench = [] → s.schedule = .dispatch :: rest → s.GIE = true → s.evt3.getLsbD 2 = true →
      step s = andThen (exec .hZc { s with schedule := rest, ZCF := false, GIE := false })
        fun t => .next { t with GIE := true })

/-- `H_CC` writes `AS` and nothing else: `ADL` in bits 7:0, `ADH` in bits 9:8 (45_analog_latch.md R181, 20_memory.md R62, the
spec's decision D24). -/
def Obligations.ConversionHandlerLatchesParts : Prop :=
  ∀ s : State, exec .hCc s = .next { s with AS := s.ADH ++ s.ADL }

/-- `AS` becomes exactly the raw result: what the converter completed with is what `H_CC` latches, whatever was there
before (R182). -/
def Obligations.LatchedSampleIsTheRawResult : Prop :=
  ∀ (v : Sample) (s : State), s.ADBUSY = true →
    ∃ t u, exec (.adc v) s = .next t ∧ exec .hCc t = .next u ∧ u.AS = v

/-! ## Environment operations -/

/-- The state after reset, in the cells the spec gives a value (10_state.md R40, the spec's decision D22; log 20). -/
def Obligations.ResetStateValues : Prop :=
  State.reset.AS = 0#10 ∧ State.reset.CST = .armed ∧ State.reset.TRIG = false ∧ State.reset.CS = .stopped ∧
  State.reset.OCF = false ∧ State.reset.OCIE = false ∧ State.reset.GIE = false ∧ State.reset.ZCF = false ∧
  State.reset.ADIF = false ∧ State.reset.ADBUSY = false ∧ State.reset.TDS = .idle ∧ State.reset.HALTED = true ∧
  State.reset.REFUSED = false

/-- `RST` from any state gives every cell its reset value; of the four drawn cells nothing is said (46_environment_ops.md
R191, the spec's decision D22). The schedule, the bench and the output ports are no cells and stay (the model's choice,
log 6). -/
def Obligations.ResetOperationResult : Prop :=
  ∀ s : State, ∃ t, exec .rst s = .next t ∧
    t = { State.reset with
      TCNT := t.TCNT, OCR := t.OCR, ADL := t.ADL, ADH := t.ADH, draws := t.draws, ports := s.ports,
      schedule := s.schedule, bench := s.bench }

/-- `START` requests the first conversion and unmasks, once; a second one changes nothing (R192, the spec's decision
D17). -/
def Obligations.StartIsOneShot : Prop :=
  ∀ s : State,
    (s.HALTED = true → exec .start s = .next { s with ADBUSY := true, GIE := true, HALTED := false }) ∧
    (s.HALTED = false → exec .start s = .next s)

/-- `ZC` and `CM` record their events and do nothing else, masked or not (R193, R197, the spec's decisions D17 and D18). -/
def Obligations.EdgeAndMatchEventsOnlyPend : Prop :=
  ∀ s : State, exec .zc s = .next { s with ZCF := true } ∧ exec .cm s = .next { s with OCF := true }

/-- `ADC v` completes a requested conversion; with none in progress it has no effect (R194, the spec's decision D23). -/
def Obligations.ConversionCompletesOncePerRequest : Prop :=
  ∀ (v : Sample) (s : State),
    (s.ADBUSY = true → exec (.adc v) s = .next { s with
      ADL := v.extractLsb' 0 8, ADH := v.extractLsb' 8 2, ADBUSY := false, ADIF := true }) ∧
    (s.ADBUSY = false → exec (.adc v) s = .next s)

/-- `TICK 0` does nothing at all; `TICK (n + 1)` is a tick, if the clock runs, a `RUN`, and `TICK n`; it always completes
(R196, the spec's decision D17). -/
def Obligations.TickRepeatsTickThenRun : Prop :=
  (∀ s : State, exec (.tick 0#12) s = .next s) ∧
  (∀ (n m : BitVec 12) (s : State), m.toNat = n.toNat + 1 →
    exec (.tick m) s = andThen (exec .run (timerAgent s)) (exec (.tick n))) ∧
  (∀ (n : BitVec 12) (s : State), ∃ t, exec (.tick n) s = .next t)

/-- `RUN` is the loop of R198: while dispatch is enabled, one dispatch and again; and it ends (the spec's decision D17). -/
def Obligations.RunIsTheDispatchLoop : Prop :=
  ∀ s : State,
    ((s.GIE = false ∨ s.evt3 = 0b000#3) → exec .run s = .next s) ∧
    (s.GIE = true → s.evt3 ≠ 0b000#3 → exec .run s = andThen (dispatchOne s) (exec .run)) ∧
    (∃ t, exec .run s = .next t)

/-- After a `RUN` with handlers unmasked, they are unmasked and nothing is pending and enabled (R198, R218, and the last
line of 95_test_vectors.md 2.10, derived there). -/
def Obligations.RunLeavesNothingPending : Prop :=
  ∀ s t : State, exec .run s = .next t → s.GIE = true →
    t.GIE = true ∧ t.ZCF = false ∧ t.ADIF = false ∧ (t.OCF && t.OCIE) = false

/-! ## Rules about the whole block -/

/-- Every operation is total on its stated domain and has no failure result (00_scope.md R11). -/
def Obligations.OperationsInDomainComplete : Prop :=
  ∀ (i : Instr) (s : State), i.wellFormed = true → ∃ t, exec i s = .next t

/-- A zero-cross that is pending is served first and discards a pending compare match: one `RUN` is `H_ZC`, with the sample
latched before, and then `H_CC` if a conversion was pending; `H_CM` does not run and the output is off (60_exceptions.md
R215, R216, derived there, with the spec's decision D19). -/
def Obligations.ZeroCrossWinsTies : Prop :=
  ∀ s : State, s.GIE = true → s.ZCF = true →
    ∃ z, exec .hZc { s with ZCF := false, GIE := false } = .next z ∧ z.TRIG = false ∧ z.CST = .armed ∧
      exec .run s = .next (if s.ADIF then { z with GIE := true, ADIF := false, AS := s.ADH ++ s.ADL }
        else { z with GIE := true })

/-- Each cell is written only by the operations of its owners in the table of 10_state.md R20, `RST` apart, which writes all
of them; `RUN` and `TICK` may write what the handlers they run may write. The clauses on the model's own fields are its
choice and no rule of the spec: of the operations other than `RST`, `RUN` and `TICK`, only the four functions driven on
their own write the output-port field, so a handler that calls one does not (log 1); and no operation other than `RST`
changes `draws` (log 6), the schedule (log 2) or the bench (log 13). -/
def Obligations.OnlyOwnersWriteCells : Prop :=
  ∀ (i : Instr) (s t : State), exec i s = .next t → i ≠ .rst →
    (t.HALTED ≠ s.HALTED → i = .start) ∧
    (t.GIE ≠ s.GIE → i = .start) ∧
    (t.ADL ≠ s.ADL ∨ t.ADH ≠ s.ADH → ∃ v, i = .adc v) ∧
    (t.TCNT ≠ s.TCNT → ∃ n, i = .tick n) ∧
    t.REFUSED = s.REFUSED ∧ t.draws = s.draws ∧ t.schedule = s.schedule ∧ t.bench = s.bench ∧
    (i ≠ .run → (∀ n, i ≠ .tick n) →
      (t.AS ≠ s.AS → i = .hCc) ∧
      (t.CST ≠ s.CST ∨ t.TRIG ≠ s.TRIG → i = .hZc ∨ i = .hCm) ∧
      (t.OCR ≠ s.OCR ∨ t.TDS ≠ s.TDS → (∃ cs cc, i = .tprog cs cc) ∨ i = .hZc ∨ i = .hCm) ∧
      (t.CS ≠ s.CS ∨ t.OCIE ≠ s.OCIE → (∃ cs cc, i = .tprog cs cc) ∨ i = .tstop ∨ i = .hZc ∨ i = .hCm) ∧
      (t.OCF ≠ s.OCF → (∃ cs cc, i = .tprog cs cc) ∨ i = .hZc ∨ i = .hCm ∨ i = .cm) ∧
      (t.ZCF ≠ s.ZCF → i = .zc) ∧
      (t.ADIF ≠ s.ADIF → ∃ v, i = .adc v) ∧
      (t.ADBUSY ≠ s.ADBUSY → i = .start ∨ i = .hZc ∨ ∃ v, i = .adc v) ∧
      (t.ports ≠ s.ports → (∃ x, i = .map x) ∨ (∃ p, i = .p2d p) ∨ (∃ d, i = .d2p d) ∨ ∃ p, i = .calcWord p))

/-- At most one pulse between two zero-crosses: once Firing, with no zero-cross pending, every step but a reset stays in
Firing and never raises the output again (43_firing_fsm.md R164, R165, derived there). -/
def Obligations.NoSecondPulseBeforeZeroCross : Prop :=
  ∀ s t : State, step s = .next t → s.CST = .firing → s.ZCF = false →
    (s.bench = [] → s.schedule.head? ≠ some (.stim 0x0000#16)) →
    t.CST = .firing ∧ (t.TRIG = true → s.TRIG = true)

/-- After reset and before `START` the block is inert: whatever comes next, but a reset, a start or a command given to the
Timer Driver from outside, changes nothing but the pending bits of `ZC` and `CM` and the output ports
(70_reset_and_hazards.md R241, derived there). That a step takes one entry off the schedule or the bench, and leaves
`draws`, is the model's choice (logs 2, 13 and 6), and so are the output ports as a field of State (log 1). -/
def Obligations.InertBeforeStart : Prop :=
  ∀ s t : State, s.Inert → s.noDirectCommand = true →
    (s.bench = [] → s.schedule.head? ≠ some (.stim 0x0000#16) ∧ s.schedule.head? ≠ some (.stim 0x1000#16)) →
    step s = .next t →
    t = { s with
      bench := s.bench.tail, schedule := if s.bench = [] then s.schedule.tail else s.schedule
      ZCF := t.ZCF, OCF := t.OCF, ports := t.ports }

/-- The sequencing and pulse invariants hold at reset. -/
def Obligations.ResetMeetsInvariants : Prop :=
  State.reset.Sequenced ∧ State.reset.PulseEnds

/-- Every step keeps the sequencing invariant: Armed means output off, the interrupt is enabled exactly while the clock
runs, handlers are masked exactly before `START`, the Timer Driver is idle, nothing marked goes on. -/
def Obligations.StepKeepsSequencing : Prop :=
  ∀ s t : State, s.Sequenced → step s = .next t → t.Sequenced

/-- Every step, unless it drives the Timer Driver from outside, keeps the pulse invariant: while the output is asserted the
controller is in Firing and an enabled program at prescaler 8 runs to end the pulse. -/
def Obligations.StepKeepsPulseEnding : Prop :=
  ∀ s t : State, s.PulseEnds → s.noDirectCommand = true → step s = .next t → t.PulseEnds

/-- No behaviour depends on the counter's absolute value (R26, R146, R150, derived there): two states that differ only in
the timer's origin step alike and stay so, and one refuses exactly where the other does. -/
def Obligations.TimerOriginIsUnobservable : Prop :=
  ∀ s t : State, s.SameButTimerOrigin t →
    (∀ s', step s = .next s' → ∃ t', step t = .next t' ∧ s'.SameButTimerOrigin t') ∧
    (∀ r, step s = .refused r → ∃ r', step t = .refused r')

/-- One half-cycle with power (44_cycle_sequencer.md R176, derived there): a zero-cross served with a sample that maps to
1..100 arms a program `(N, cc)`; the output stays off for `cc` ticks, rises at tick `cc + 1`, stays on for 149 ticks
and falls at the 150th. It holds for every sample and every full-power delay. -/
def Obligations.HalfCycleFiresOnePulse : Prop :=
  ∀ s : State, s.GIE = true → s.ZCF = true → s.ADIF = false → mapPort s.AS ≠ 0#7 →
    ∃ tp z u v, calcPort (mapPort s.AS) = some (.program tp) ∧ exec .run s = .next z ∧
      (∀ k : Nat, k ≤ tp.count.toNat → ∃ t, exec (.tick (BitVec.ofNat 12 k)) z = .next t ∧ t.TRIG = false) ∧
      exec (.tick (BitVec.ofNat 12 (tp.count.toNat + 1))) z = .next u ∧ u.TRIG = true ∧ u.CST = .firing ∧
      (∀ k : Nat, k ≤ 149 → ∃ t, exec (.tick (BitVec.ofNat 12 k)) u = .next t ∧ t.TRIG = true) ∧
      exec (.tick 150#12) u = .next v ∧ v.TRIG = false ∧ v.CST = .firing

/-- On every weakly fair interleaving of the agents without a reset, a zero-cross that is pending and unmasked is served, at
the first point at which a dispatch is taken (R200, with the priority of R215): there it is what the vector selects, and
afterwards it is pending no more. -/
def Obligations.FairDispatcherServesZeroCross : Prop :=
  ∀ (steps : Nat → Entry) (states : Nat → State), OpenRun steps states → WeaklyFair steps states →
    (∀ n, steps n ≠ .stim 0x0000#16) →
    ∀ n, (states n).GIE = true → (states n).ZCF = true →
      ∃ m, n ≤ m ∧ dispatches (steps m) = true ∧ (∀ k, n ≤ k → k < m → dispatches (steps k) = false) ∧
        (states m).GIE = true ∧ (states m).pendingEvent = some .zeroCross ∧ (states (m + 1)).ZCF = false
end

