-- ==== Sys2Proof/Laws/State.lean ====
section
/-! SUPPORT. What each named update of the state does to each field, one simp lemma an update: a conjunction of one
equation a field, each of which simp takes as a rule of its own. -/

namespace Sys2Proof.Machine

/-- Trap return (R218), field by field. -/
@[simp] theorem trapReturn_fields (s : State) :
    (trapReturn s).AS = s.AS ∧ (trapReturn s).CST = s.CST ∧ (trapReturn s).TRIG = s.TRIG ∧
    (trapReturn s).TCNT = s.TCNT ∧ (trapReturn s).OCR = s.OCR ∧ (trapReturn s).CS = s.CS ∧
    (trapReturn s).OCF = s.OCF ∧ (trapReturn s).OCIE = s.OCIE ∧ (trapReturn s).GIE = true ∧
    (trapReturn s).ZCF = s.ZCF ∧ (trapReturn s).ADIF = s.ADIF ∧ (trapReturn s).ADBUSY = s.ADBUSY ∧
    (trapReturn s).ADL = s.ADL ∧ (trapReturn s).ADH = s.ADH ∧ (trapReturn s).TDS = s.TDS ∧
    (trapReturn s).HALTED = s.HALTED ∧ (trapReturn s).REFUSED = s.REFUSED ∧ (trapReturn s).draws = s.draws ∧
    (trapReturn s).ports = s.ports ∧ (trapReturn s).schedule = s.schedule ∧
    (trapReturn s).bench = s.bench := by
  and_intros <;> rfl

/-- One tick (R195), field by field. -/
@[simp] theorem timerTick_fields (s : State) :
    (timerTick s).AS = s.AS ∧ (timerTick s).CST = s.CST ∧ (timerTick s).TRIG = s.TRIG ∧
    (timerTick s).TCNT = s.TCNT + 1#8 ∧ (timerTick s).OCR = s.OCR ∧ (timerTick s).CS = s.CS ∧
    (timerTick s).OCF = (s.OCF || s.atMatch) ∧ (timerTick s).OCIE = s.OCIE ∧ (timerTick s).GIE = s.GIE ∧
    (timerTick s).ZCF = s.ZCF ∧ (timerTick s).ADIF = s.ADIF ∧ (timerTick s).ADBUSY = s.ADBUSY ∧
    (timerTick s).ADL = s.ADL ∧ (timerTick s).ADH = s.ADH ∧ (timerTick s).TDS = s.TDS ∧
    (timerTick s).HALTED = s.HALTED ∧ (timerTick s).REFUSED = s.REFUSED ∧ (timerTick s).draws = s.draws ∧
    (timerTick s).ports = s.ports ∧ (timerTick s).schedule = s.schedule ∧
    (timerTick s).bench = s.bench := by
  and_intros <;> rfl

/-- What `TPROG` leaves: the six writes taken together (R141). -/
theorem timerProgram_eq (n : Prescaler) (cc : Byte) (s : State) :
    timerProgram n cc s =
      { s with OCIE := true, CS := clockOf n, OCF := false, OCR := s.TCNT + cc, TDS := .idle } := by
  simp only [timerProgram, tprogEnter, tprogS1, tprogS2, tprogS3, tprogS4, tprogS5, tprogS6, tprogLeave, compareTarget]

/-- `TPROG` (R141), field by field. -/
@[simp] theorem timerProgram_fields (n : Prescaler) (cc : Byte) (s : State) :
    (timerProgram n cc s).AS = s.AS ∧ (timerProgram n cc s).CST = s.CST ∧ (timerProgram n cc s).TRIG = s.TRIG ∧
    (timerProgram n cc s).TCNT = s.TCNT ∧ (timerProgram n cc s).OCR = s.TCNT + cc ∧
    (timerProgram n cc s).CS = clockOf n ∧ (timerProgram n cc s).OCF = false ∧ (timerProgram n cc s).OCIE = true ∧
    (timerProgram n cc s).GIE = s.GIE ∧ (timerProgram n cc s).ZCF = s.ZCF ∧ (timerProgram n cc s).ADIF = s.ADIF ∧
    (timerProgram n cc s).ADBUSY = s.ADBUSY ∧ (timerProgram n cc s).ADL = s.ADL ∧
    (timerProgram n cc s).ADH = s.ADH ∧ (timerProgram n cc s).TDS = .idle ∧
    (timerProgram n cc s).HALTED = s.HALTED ∧ (timerProgram n cc s).REFUSED = s.REFUSED ∧
    (timerProgram n cc s).draws = s.draws ∧ (timerProgram n cc s).ports = s.ports ∧
    (timerProgram n cc s).schedule = s.schedule ∧
    (timerProgram n cc s).bench = s.bench := by
  rw [timerProgram_eq]; and_intros <;> rfl

/-- `TSTOP` (R145), field by field. -/
@[simp] theorem timerStop_fields (s : State) :
    (timerStop s).AS = s.AS ∧ (timerStop s).CST = s.CST ∧ (timerStop s).TRIG = s.TRIG ∧
    (timerStop s).TCNT = s.TCNT ∧ (timerStop s).OCR = s.OCR ∧ (timerStop s).CS = .stopped ∧
    (timerStop s).OCF = s.OCF ∧ (timerStop s).OCIE = false ∧ (timerStop s).GIE = s.GIE ∧
    (timerStop s).ZCF = s.ZCF ∧ (timerStop s).ADIF = s.ADIF ∧ (timerStop s).ADBUSY = s.ADBUSY ∧
    (timerStop s).ADL = s.ADL ∧ (timerStop s).ADH = s.ADH ∧ (timerStop s).TDS = s.TDS ∧
    (timerStop s).HALTED = s.HALTED ∧ (timerStop s).REFUSED = s.REFUSED ∧ (timerStop s).draws = s.draws ∧
    (timerStop s).ports = s.ports ∧ (timerStop s).schedule = s.schedule ∧
    (timerStop s).bench = s.bench := by
  and_intros <;> rfl

/-- The conversion request (R174), field by field. -/
@[simp] theorem requestConversion_fields (s : State) :
    (requestConversion s).AS = s.AS ∧ (requestConversion s).CST = s.CST ∧ (requestConversion s).TRIG = s.TRIG ∧
    (requestConversion s).TCNT = s.TCNT ∧ (requestConversion s).OCR = s.OCR ∧ (requestConversion s).CS = s.CS ∧
    (requestConversion s).OCF = s.OCF ∧ (requestConversion s).OCIE = s.OCIE ∧ (requestConversion s).GIE = s.GIE ∧
    (requestConversion s).ZCF = s.ZCF ∧ (requestConversion s).ADIF = s.ADIF ∧ (requestConversion s).ADBUSY = true ∧
    (requestConversion s).ADL = s.ADL ∧ (requestConversion s).ADH = s.ADH ∧ (requestConversion s).TDS = s.TDS ∧
    (requestConversion s).HALTED = s.HALTED ∧ (requestConversion s).REFUSED = s.REFUSED ∧
    (requestConversion s).draws = s.draws ∧ (requestConversion s).ports = s.ports ∧
    (requestConversion s).schedule = s.schedule ∧
    (requestConversion s).bench = s.bench := by
  and_intros <;> rfl

/-- The converter's completion (R194), field by field. -/
@[simp] theorem completeConversion_fields (v : Sample) (s : State) :
    (completeConversion v s).AS = s.AS ∧ (completeConversion v s).CST = s.CST ∧
    (completeConversion v s).TRIG = s.TRIG ∧ (completeConversion v s).TCNT = s.TCNT ∧
    (completeConversion v s).OCR = s.OCR ∧ (completeConversion v s).CS = s.CS ∧
    (completeConversion v s).OCF = s.OCF ∧ (completeConversion v s).OCIE = s.OCIE ∧
    (completeConversion v s).GIE = s.GIE ∧ (completeConversion v s).ZCF = s.ZCF ∧
    (completeConversion v s).ADIF = true ∧ (completeConversion v s).ADBUSY = false ∧
    (completeConversion v s).ADL = sampleLow v ∧ (completeConversion v s).ADH = sampleHigh v ∧
    (completeConversion v s).TDS = s.TDS ∧ (completeConversion v s).HALTED = s.HALTED ∧
    (completeConversion v s).REFUSED = s.REFUSED ∧ (completeConversion v s).draws = s.draws ∧
    (completeConversion v s).ports = s.ports ∧ (completeConversion v s).schedule = s.schedule ∧
    (completeConversion v s).bench = s.bench := by
  and_intros <;> rfl

/-- Placing an entry, field by field. -/
@[simp] theorem scheduleFirst_fields (e : Entry) (s : State) :
    (scheduleFirst e s).AS = s.AS ∧ (scheduleFirst e s).CST = s.CST ∧ (scheduleFirst e s).TRIG = s.TRIG ∧
    (scheduleFirst e s).TCNT = s.TCNT ∧ (scheduleFirst e s).OCR = s.OCR ∧ (scheduleFirst e s).CS = s.CS ∧
    (scheduleFirst e s).OCF = s.OCF ∧ (scheduleFirst e s).OCIE = s.OCIE ∧ (scheduleFirst e s).GIE = s.GIE ∧
    (scheduleFirst e s).ZCF = s.ZCF ∧ (scheduleFirst e s).ADIF = s.ADIF ∧ (scheduleFirst e s).ADBUSY = s.ADBUSY ∧
    (scheduleFirst e s).ADL = s.ADL ∧ (scheduleFirst e s).ADH = s.ADH ∧ (scheduleFirst e s).TDS = s.TDS ∧
    (scheduleFirst e s).HALTED = s.HALTED ∧ (scheduleFirst e s).REFUSED = s.REFUSED ∧
    (scheduleFirst e s).draws = s.draws ∧ (scheduleFirst e s).ports = s.ports ∧
    (scheduleFirst e s).schedule = e :: s.schedule ∧ (scheduleFirst e s).bench = [] := by
  and_intros <;> rfl

/-- Placing a port's word, field by field. -/
@[simp] theorem benchFirst_fields (w : PortWord) (s : State) :
    (benchFirst w s).AS = s.AS ∧ (benchFirst w s).CST = s.CST ∧ (benchFirst w s).TRIG = s.TRIG ∧
    (benchFirst w s).TCNT = s.TCNT ∧ (benchFirst w s).OCR = s.OCR ∧ (benchFirst w s).CS = s.CS ∧
    (benchFirst w s).OCF = s.OCF ∧ (benchFirst w s).OCIE = s.OCIE ∧ (benchFirst w s).GIE = s.GIE ∧
    (benchFirst w s).ZCF = s.ZCF ∧ (benchFirst w s).ADIF = s.ADIF ∧ (benchFirst w s).ADBUSY = s.ADBUSY ∧
    (benchFirst w s).ADL = s.ADL ∧ (benchFirst w s).ADH = s.ADH ∧ (benchFirst w s).TDS = s.TDS ∧
    (benchFirst w s).HALTED = s.HALTED ∧ (benchFirst w s).REFUSED = s.REFUSED ∧
    (benchFirst w s).draws = s.draws ∧ (benchFirst w s).ports = s.ports ∧
    (benchFirst w s).schedule = s.schedule ∧ (benchFirst w s).bench = w :: s.bench := by
  and_intros <;> rfl

/-- Placing an event vector, field by field. -/
@[simp] theorem withEventVector_fields (e : Evt3) (s : State) :
    (withEventVector e s).AS = s.AS ∧ (withEventVector e s).CST = s.CST ∧ (withEventVector e s).TRIG = s.TRIG ∧
    (withEventVector e s).TCNT = s.TCNT ∧ (withEventVector e s).OCR = s.OCR ∧ (withEventVector e s).CS = s.CS ∧
    (withEventVector e s).OCF = e.getLsbD 1 ∧ (withEventVector e s).OCIE = (s.OCIE || e.getLsbD 1) ∧
    (withEventVector e s).GIE = true ∧ (withEventVector e s).ZCF = e.getLsbD 2 ∧
    (withEventVector e s).ADIF = e.getLsbD 0 ∧ (withEventVector e s).ADBUSY = s.ADBUSY ∧
    (withEventVector e s).ADL = s.ADL ∧ (withEventVector e s).ADH = s.ADH ∧ (withEventVector e s).TDS = s.TDS ∧
    (withEventVector e s).HALTED = s.HALTED ∧ (withEventVector e s).REFUSED = s.REFUSED ∧
    (withEventVector e s).draws = s.draws ∧ (withEventVector e s).ports = s.ports ∧
    (withEventVector e s).schedule = s.schedule ∧
    (withEventVector e s).bench = s.bench := by
  and_intros <;> rfl

/-- Trap entry for this event (R217) is two writes. -/
@[simp] theorem trapEntry_zeroCross (s : State) :
    trapEntry .zeroCross s = { s with ZCF := false, GIE := false } := rfl

/-- Trap entry for this event (R217) is two writes. -/
@[simp] theorem trapEntry_timerCompare (s : State) :
    trapEntry .timerCompare s = { s with OCF := false, GIE := false } := rfl

/-- Trap entry for this event (R217) is two writes. -/
@[simp] theorem trapEntry_conversionComplete (s : State) :
    trapEntry .conversionComplete s = { s with ADIF := false, GIE := false } := rfl

/-- The timer agent's step while the clock runs. -/
theorem timerAgent_running (s : State) (h : s.CS ≠ .stopped) : timerAgent s = timerTick s := by
  simp [timerAgent, State.clockRuns, h]

/-- The timer agent's step while the clock is stopped. -/
theorem timerAgent_stopped (s : State) (h : s.CS = .stopped) : timerAgent s = s := by
  simp [timerAgent, State.clockRuns, h]


/-- The timer agent changes `TCNT` and `OCF` only (R195). -/
@[simp] theorem timerAgent_fields (s : State) :
    (timerAgent s).AS = s.AS ∧ (timerAgent s).CST = s.CST ∧ (timerAgent s).TRIG = s.TRIG ∧
    (timerAgent s).OCR = s.OCR ∧ (timerAgent s).CS = s.CS ∧ (timerAgent s).OCIE = s.OCIE ∧
    (timerAgent s).GIE = s.GIE ∧ (timerAgent s).ZCF = s.ZCF ∧ (timerAgent s).ADIF = s.ADIF ∧
    (timerAgent s).ADBUSY = s.ADBUSY ∧ (timerAgent s).ADL = s.ADL ∧ (timerAgent s).ADH = s.ADH ∧
    (timerAgent s).TDS = s.TDS ∧ (timerAgent s).HALTED = s.HALTED ∧ (timerAgent s).REFUSED = s.REFUSED ∧
    (timerAgent s).draws = s.draws ∧ (timerAgent s).ports = s.ports ∧ (timerAgent s).schedule = s.schedule ∧
    (timerAgent s).bench = s.bench := by
  unfold timerAgent; split <;> (and_intros <;> rfl)

end Sys2Proof.Machine
end

