-- ==== Sys2Proof/Laws/Words.lean ====
section
/-! SUPPORT. The fields of the words of 30_encoding.md R85 and R87, by their numbers. -/

namespace Sys2Proof

/-- A slice, by its number: `v[hi:lo]` (00_scope.md section 5). -/
theorem extract_toNat {w : Nat} (x : BitVec w) (lo len : Nat) :
    (x.extractLsb' lo len).toNat = x.toNat / 2 ^ lo % 2 ^ len := by
  simp [BitVec.extractLsb'_toNat, Nat.shiftRight_eq_div_pow]

/-- A PROGRAM word is `0x800 + cs * 256 + cc` (R85). -/
theorem programWord_toNat (cs : BitVec 3) (cc : Byte) :
    (programWord cs cc).toNat = 2048 + 256 * cs.toNat + cc.toNat := by
  have h1 : (programWord cs cc).toNat = (1#1 ++ cs : BitVec (1+3)).toNat <<< 8 ||| cc.toNat :=
    BitVec.toNat_append (1#1 ++ cs : BitVec (1+3)) cc
  have h2 : (1#1 ++ cs : BitVec (1+3)).toNat = 1 <<< 3 ||| cs.toNat := BitVec.toNat_append 1#1 cs
  rw [h1, h2, ← Nat.shiftLeft_add_eq_or_of_lt cc.isLt, ← Nat.shiftLeft_add_eq_or_of_lt cs.isLt]
  simp only [Nat.shiftLeft_eq]; omega

/-- A stimulus word is `op * 4096 + arg` (R87). -/
theorem stimWord_toNat (op : BitVec 4) (arg : BitVec 12) :
    (stimWord op arg).toNat = 4096 * op.toNat + arg.toNat := by
  have h1 : (stimWord op arg).toNat = op.toNat <<< 12 ||| arg.toNat := BitVec.toNat_append op arg
  rw [h1, ← Nat.shiftLeft_add_eq_or_of_lt arg.isLt]
  simp only [Nat.shiftLeft_eq]; omega

/-- The fields of a PROGRAM word read back (R85). -/
theorem programWord_fields (cs : BitVec 3) (cc : Byte) :
    (programWord cs cc).getLsbD 11 = true ∧ (programWord cs cc).extractLsb' 8 3 = cs ∧
    (programWord cs cc).extractLsb' 0 8 = cc := by
  have h := programWord_toNat cs cc
  have hcs := cs.isLt
  have hcc := cc.isLt
  refine ⟨?_, BitVec.eq_of_toNat_eq ?_, BitVec.eq_of_toNat_eq ?_⟩
  · simp only [BitVec.getLsbD, Nat.testBit_eq_decide_div_mod_eq, h, decide_eq_true_eq]; omega
  · rw [extract_toNat, h]; omega
  · rw [extract_toNat, h]; omega

/-- The fields of a stimulus word read back (R87). -/
theorem stimWord_fields (op : BitVec 4) (arg : BitVec 12) :
    (stimWord op arg).extractLsb' 12 4 = op ∧ (stimWord op arg).extractLsb' 0 12 = arg := by
  have h := stimWord_toNat op arg
  have hop := op.isLt
  have harg := arg.isLt
  refine ⟨BitVec.eq_of_toNat_eq ?_, BitVec.eq_of_toNat_eq ?_⟩
  · rw [extract_toNat, h]; omega
  · rw [extract_toNat, h]; omega

/-- The fields of the argument of `ADC` read back (R87, R90). -/
theorem adcArgument_fields (v : Sample) :
    (0#2 ++ v : BitVec 12).extractLsb' 10 2 = 0#2 ∧ (0#2 ++ v : BitVec 12).extractLsb' 0 10 = v := by
  have h : (0#2 ++ v : BitVec 12).toNat = v.toNat := by
    have h1 : (0#2 ++ v : BitVec 12).toNat = (0#2).toNat <<< 10 ||| v.toNat := BitVec.toNat_append 0#2 v
    simpa using h1
  have hv := v.isLt
  refine ⟨BitVec.eq_of_toNat_eq ?_, BitVec.eq_of_toNat_eq ?_⟩
  · rw [extract_toNat, h]; simp; omega
  · rw [extract_toNat, h]; omega

/-- A stimulus word is its two fields side by side (R87). -/
theorem stimWord_split (w : Stim16) : stimWord (w.extractLsb' 12 4) (w.extractLsb' 0 12) = w := by
  apply BitVec.eq_of_toNat_eq
  rw [stimWord_toNat, extract_toNat, extract_toNat]
  have := w.isLt
  omega

/-- A command word with `k = 1` is its fields side by side (R85). -/
theorem programWord_split (w : Tcmd12) (hk : w.getLsbD 11 = true) :
    programWord (w.extractLsb' 8 3) (w.extractLsb' 0 8) = w := by
  apply BitVec.eq_of_toNat_eq
  rw [programWord_toNat, extract_toNat, extract_toNat]
  simp only [BitVec.getLsbD, Nat.testBit_eq_decide_div_mod_eq, decide_eq_true_eq] at hk
  have := w.isLt
  omega

/-- An argument of `ADC` is its ten low bits (R87). -/
theorem adcArgument_split (a : BitVec 12) (h : a.extractLsb' 10 2 = 0#2) :
    (0#2 ++ a.extractLsb' 0 10 : BitVec 12) = a := by
  have h1 : (0#2 ++ a.extractLsb' 0 10 : BitVec 12).toNat = (0#2).toNat <<< 10 ||| (a.extractLsb' 0 10).toNat :=
    BitVec.toNat_append 0#2 _
  have h2 : (a.extractLsb' 10 2).toNat = 0 := by rw [h]; rfl
  rw [extract_toNat] at h2
  apply BitVec.eq_of_toNat_eq
  rw [h1, extract_toNat]
  have := a.isLt
  simp
  omega

/-- A stimulus with no argument decodes to its operation, and to no other (R88). -/
theorem bareStimulus_eq_ok (arg : BitVec 12) (i j : Instr) : bareStimulus arg i = .ok j ↔ arg = 0#12 ∧ i = j := by
  unfold bareStimulus
  split <;> simp_all

/-- A mask of the bits from `k` upward keeps the number's multiple of `2 ^ k` (R89, the mask and match of a row). -/
theorem mask_toNat (w m : Stim16) (k : Nat) (hm : m.toNat = (2 ^ (16 - k) - 1) <<< k) :
    (w &&& m).toNat = w.toNat / 2 ^ k * 2 ^ k := by
  have hw := w.isLt
  rw [BitVec.toNat_and, hm, ← Nat.shiftRight_eq_div_pow, ← Nat.shiftLeft_eq]
  apply Nat.eq_of_testBit_eq
  intro i
  simp only [Nat.testBit_and, Nat.testBit_shiftLeft, Nat.testBit_shiftRight, Nat.testBit_two_pow_sub_one]
  by_cases hi : k ≤ i
  · have e : k + (i - k) = i := by omega
    by_cases h16 : i < 16
    · simp [hi, e]; omega
    · have : w.toNat.testBit i = false :=
        Nat.testBit_lt_two_pow (Nat.lt_of_lt_of_le hw (Nat.pow_le_pow_right (by decide) (by omega)))
      simp [hi, e, this]
  · simp [hi]

/-- `presc` inverts `sel` (R82). -/
@[simp] theorem presc_sel (n : Prescaler) : presc (sel n) = some n := by cases n <;> rfl

/-- Only the three codes of `sel` have a prescaler (R82). -/
theorem presc_eq_some (cs : BitVec 3) (n : Prescaler) : presc cs = some n ↔ cs = sel n := by
  cases n <;> revert cs <;> decide

/-- A prescaler's clock runs (R28). -/
@[simp] theorem clockOf_ne_stopped (n : Prescaler) : clockOf n ≠ .stopped := by cases n <;> decide

end Sys2Proof
end

