-- ==== Sys2Proof/Laws/Ops.lean ====
section
/-! SUPPORT. What each shared operation can do, said once. -/

namespace Sys2Proof.Machine

/-! ## Outcomes -/

@[simp] theorem andThen_next (s : State) (f : State → Result) : andThen (.next s) f = f s := rfl
@[simp] theorem andThen_refused (r : Refusal) (f : State → Result) : andThen (.refused r) f = .refused r := rfl

/-! ## The pure functions -/

/-- `MAP` with the values of R9 written out (R111). -/
theorem mapToPercent_eq (x : Nat) :
    mapToPercent parameters x =
      if 941 ≤ x then 100 else if x ≤ 220 then 0 else (x - 205) * 100 / 818 := by
  rw [mapToPercent, show saturatesOn parameters x = decide (941 ≤ x) from rfl,
    show saturatesOff parameters x = decide (x ≤ 220) from rfl]
  simp only [decide_eq_true_eq]
  rfl

/-- `MAP` answers a percent of 0..100 (R110, R113). -/
theorem mapToPercent_le (x : Nat) : mapToPercent parameters x ≤ 100 := by
  rw [mapToPercent_eq]
  split
  · omega
  · split <;> omega

/-- The port of `MAP` holds what `MAP` answers. -/
theorem mapPort_toNat (x : Sample) : (mapPort x).toNat = mapToPercent parameters x.toNat := by
  have := mapToPercent_le x.toNat
  simp only [mapPort, BitVec.toNat_ofNat]; omega

/-- `CALC` answers a command on 0..100 (R127). -/
theorem calcPort_isSome (p : Percent) (h : p.toNat ≤ 100) : ∃ c, calcPort p = some c := by
  have : ¬ 100 < p.toNat := by omega
  simp only [calcPort, calcCommand, this, if_false]
  split <;> exact ⟨_, rfl⟩

/-- What `MAP` gives, `CALC` never refuses (R131, R171). -/
theorem calcPort_mapPort (x : Sample) : ∃ c, calcPort (mapPort x) = some c :=
  calcPort_isSome _ (by rw [mapPort_toNat]; exact mapToPercent_le _)

/-- The pulse program is (8, 149) (R132). -/
@[simp] theorem pulseProgram_eq : pulseProgram parameters = ⟨.by8, 149#8⟩ := by decide

/-! ## The Timer Driver -/

/-- `EXEC` of the STOP word is `TSTOP` (R147). -/
@[simp] theorem execCommand_stop (s : State) : execCommand (commandWord .stop) s = .next (timerStop s) := rfl

/-- `EXEC` of a PROGRAM word is `TPROG` (R147). -/
@[simp] theorem execCommand_program (tp : TimerProgram) (s : State) :
    execCommand (commandWord (.program tp)) s = .next (timerProgram tp.prescaler tp.count s) := by
  obtain ⟨k, hcs, hcc⟩ := programWord_fields (sel tp.prescaler) tp.count
  have hne : programWord (sel tp.prescaler) tp.count ≠ 0x000#12 := by
    intro h; rw [h] at k; exact absurd k (by decide)
  simp only [execCommand, commandWord, hne, if_false, k, if_true, hcs, hcc, programFields, presc_sel]

/-- `EXEC` and the decoder agree on every command word (R85, R147). -/
theorem execCommand_decode (w : Tcmd12) (s : State) :
    execCommand w s =
      match decodeTcmd12 w with
      | .ok (.tprog cs cc) => programFields cs cc s
      | .ok _ => .next (timerStop s)
      | .error _ => refuse .reservedTcmd12 s := by
  unfold execCommand decodeTcmd12
  by_cases h0 : w = 0x000#12
  · subst h0; simp
  · by_cases hk : w.getLsbD 11 = true
    · simp only [h0, hk, if_true, if_false]
    · simp only [h0, hk, if_false]; rfl

/-! ## The handlers -/

/-- The state that `H_ZC` leaves once its command is known (R173). -/
def zeroCrossNext (c : TimerCommand) (s : State) : State :=
  match c with
  | .stop => { s with TRIG := false, OCIE := false, CS := .stopped, CST := .armed, ADBUSY := true }
  | .program tp =>
    { s with
      TRIG := false, OCIE := true, CS := clockOf tp.prescaler, OCF := false, OCR := s.TCNT + tp.count, TDS := .idle
      CST := .armed, ADBUSY := true }

/-- `H_ZC` always completes (R171, R173). -/
theorem execHZc_next (s : State) :
    ∃ c, calcPort (mapPort s.AS) = some c ∧ execHZc s = .next (zeroCrossNext c s) := by
  obtain ⟨c, hc⟩ := calcPort_mapPort s.AS
  refine ⟨c, hc, ?_⟩
  cases c with
  | stop => simp [execHZc, hc, zeroCrossNext, requestConversion, timerStop]
  | program tp => simp [execHZc, hc, zeroCrossNext, requestConversion, timerProgram_eq]

/-- `H_CM` from Armed (R163). -/
theorem execHCm_armed (s : State) (h : s.CST = .armed) :
    execHCm s = .next { s with
      TRIG := true, OCIE := true, CS := .div8, OCF := false, OCR := s.TCNT + 149#8, TDS := .idle, CST := .firing } := by
  simp [execHCm, h, timerProgram_eq, clockOf]

/-- `H_CM` from Firing (R163). -/
theorem execHCm_firing (s : State) (h : s.CST = .firing) : execHCm s = .next { s with TRIG := false } := by
  simp [execHCm, h]

/-- `H_CC` (R181): the two parts side by side. -/
theorem execHCc_eq (s : State) : execHCc s = .next { s with AS := s.ADH ++ s.ADL } := by
  have h : assembleSample s.ADL s.ADH = s.ADH ++ s.ADL := by
    have h1 : (s.ADH ++ s.ADL : BitVec 10).toNat = s.ADH.toNat <<< 8 ||| s.ADL.toNat := BitVec.toNat_append s.ADH s.ADL
    have hl := s.ADL.isLt
    have hh := s.ADH.isLt
    apply BitVec.eq_of_toNat_eq
    rw [h1, ← Nat.shiftLeft_add_eq_or_of_lt hl]
    simp only [assembleSample, BitVec.toNat_add, BitVec.toNat_mul, BitVec.toNat_setWidth, Nat.shiftLeft_eq,
      BitVec.toNat_ofNat, BitVec.zeroExtend]
    omega
  simp [execHCc, h]

/-! ## Dispatch -/

/-- The priority decode, on the flags (R86, R215). -/
theorem pendingEvent_eq (s : State) :
    s.pendingEvent =
      if s.ZCF then some .zeroCross
      else if s.OCF && s.OCIE then some .timerCompare
      else if s.ADIF then some .conversionComplete
      else none := by
  unfold State.pendingEvent State.evt3
  cases s.ZCF <;> cases s.OCF <;> cases s.OCIE <;> cases s.ADIF <;> rfl

/-- A handler's body always completes. -/
theorem runHandler_next (ev : Event) (s : State) : ∃ t, runHandler ev s = .next t := by
  cases ev with
  | zeroCross => obtain ⟨c, -, h⟩ := execHZc_next s; exact ⟨_, h⟩
  | timerCompare =>
    cases h : s.CST with
    | armed => exact ⟨_, execHCm_armed s h⟩
    | firing => exact ⟨_, execHCm_firing s h⟩
  | conversionComplete => exact ⟨_, execHCc_eq s⟩

/-- Serving an event always completes (R199). -/
theorem serveEvent_next (ev : Event) (s : State) :
    ∃ t, runHandler ev (trapEntry ev s) = .next t ∧ serveEvent ev s = .next (trapReturn t) := by
  obtain ⟨t, h⟩ := runHandler_next ev (trapEntry ev s)
  exact ⟨t, h, by simp [serveEvent, h]⟩

/-- An enabled dispatch serves the event that the vector selects (R199). -/
theorem dispatchOne_serves (s : State) (ev : Event) (hg : s.GIE = true) (hp : s.pendingEvent = some ev) :
    dispatchOne s = serveEvent ev s := by
  simp only [dispatchOne, hg, if_true, hp]

/-- What one enabled dispatch can do: exactly one event is served, the one of highest priority (R199). -/
theorem dispatchOne_cases (s : State) (h : s.canDispatch = true) :
    ∃ ev t, s.pendingEvent = some ev ∧ runHandler ev (trapEntry ev s) = .next t ∧
      dispatchOne s = .next (trapReturn t) := by
  simp only [State.canDispatch, Bool.and_eq_true, Option.isSome_iff_exists] at h
  obtain ⟨hg, ev, hev⟩ := h
  obtain ⟨t, ht, hs⟩ := serveEvent_next ev s
  exact ⟨ev, t, hev, ht, by rw [dispatchOne_serves s ev hg hev, hs]⟩

/-- A dispatch that is not enabled has no effect (log 11). -/
theorem dispatchOne_disabled (s : State) (h : s.canDispatch = false) : dispatchOne s = .next s := by
  unfold dispatchOne
  simp only [State.canDispatch, Bool.and_eq_false_iff] at h
  rcases h with h | h
  · simp [h]
  · cases hp : s.pendingEvent <;> simp_all

end Sys2Proof.Machine
end

