-- ==== Sys2Proof/Laws/PerInstr.lean ====
section
/-! SUPPORT. Laws stated for every operation, one lemma a constructor: the round trip of words. -/

namespace Sys2Proof.Laws

/-- An operation with operands in its domain is the one its own word selects. -/
def RoundTrip.Statement (i : Instr) : Prop := i.wellFormed = true → decode (encode i) = .ok i

theorem RoundTrip.map (x : Sample) : RoundTrip.Statement (.map x) := fun _ => rfl
theorem RoundTrip.p2d (p : Percent) : RoundTrip.Statement (.p2d p) := fun _ => rfl
theorem RoundTrip.d2p (d : Delay) : RoundTrip.Statement (.d2p d) := fun _ => rfl
theorem RoundTrip.calcWord (p : Percent) : RoundTrip.Statement (.calcWord p) := fun _ => rfl

theorem RoundTrip.tprog (cs : BitVec 3) (cc : Byte) : RoundTrip.Statement (.tprog cs cc) := by
  intro _
  obtain ⟨k, hcs, hcc⟩ := programWord_fields cs cc
  simp only [decode, encode, decodePort, decodeTcmd12]
  rw [if_pos k, hcs, hcc]

theorem RoundTrip.tstop : RoundTrip.Statement .tstop := fun _ => rfl
theorem RoundTrip.hZc : RoundTrip.Statement .hZc := fun _ => rfl
theorem RoundTrip.hCm : RoundTrip.Statement .hCm := fun _ => rfl
theorem RoundTrip.hCc : RoundTrip.Statement .hCc := fun _ => rfl
theorem RoundTrip.rst : RoundTrip.Statement .rst := fun _ => rfl
theorem RoundTrip.start : RoundTrip.Statement .start := fun _ => rfl
theorem RoundTrip.zc : RoundTrip.Statement .zc := fun _ => rfl

theorem RoundTrip.adc (v : Sample) : RoundTrip.Statement (.adc v) := by
  intro _
  obtain ⟨hop, harg⟩ := stimWord_fields 0x3#4 (0#2 ++ v : BitVec 12)
  obtain ⟨hhi, hv⟩ := adcArgument_fields v
  simp only [decode, encode, decodeStim16]
  rw [hop, harg, hhi, hv]
  rfl

theorem RoundTrip.tick (n : BitVec 12) : RoundTrip.Statement (.tick n) := by
  intro _
  obtain ⟨hop, harg⟩ := stimWord_fields 0x4#4 n
  simp only [decode, encode, decodeStim16]
  rw [hop, harg]
  rfl

theorem RoundTrip.cm : RoundTrip.Statement .cm := fun _ => rfl
theorem RoundTrip.run : RoundTrip.Statement .run := fun _ => rfl

end Sys2Proof.Laws
end

