-- ==== Sys2Proof/Laws/Run.lean ====
section
/-! SUPPORT. The loops of `RUN` and `TICK`: they complete, the bound of three is enough, and what one dispatch can change. -/

namespace Sys2Proof.Machine

/-- How many dispatches can still be enabled: one for each event pending and enabled (R198). -/
def State.waiting (s : State) : Nat := s.ZCF.toNat + (s.OCF && s.OCIE).toNat + s.ADIF.toNat

/-- Where a dispatch is not enabled with handlers unmasked, nothing waits. -/
theorem canDispatch_eq (s : State) : s.canDispatch = (s.GIE && (s.ZCF || (s.OCF && s.OCIE) || s.ADIF)) := by
  rw [State.canDispatch, pendingEvent_eq]
  cases s.ZCF <;> cases s.OCF <;> cases s.OCIE <;> cases s.ADIF <;> rfl

/-- Serving the zero-cross, written out (R173, R217, R218). -/
theorem serveEvent_zeroCross (s : State) :
    ∃ c, calcPort (mapPort s.AS) = some c ∧
      serveEvent .zeroCross s = .next { zeroCrossNext c s with ZCF := false, GIE := true } := by
  obtain ⟨c, hc, he⟩ := execHZc_next { s with ZCF := false, GIE := false }
  refine ⟨c, hc, ?_⟩
  rw [serveEvent, runHandler, trapEntry_zeroCross, he]
  cases c <;> rfl

/-- Serving the compare match from Armed, written out (R163, R217, R218). -/
theorem serveEvent_timerCompare_armed (s : State) (h : s.CST = .armed) :
    serveEvent .timerCompare s = .next { s with
      TRIG := true, OCIE := true, CS := .div8, OCF := false, OCR := s.TCNT + 149#8, TDS := .idle, CST := .firing
      GIE := true } := by
  rw [serveEvent, runHandler, trapEntry_timerCompare, execHCm_armed { s with OCF := false, GIE := false } h]
  rfl

/-- Serving the compare match from Firing, written out (R163, R217, R218). -/
theorem serveEvent_timerCompare_firing (s : State) (h : s.CST = .firing) :
    serveEvent .timerCompare s = .next { s with TRIG := false, OCF := false, GIE := true } := by
  rw [serveEvent, runHandler, trapEntry_timerCompare, execHCm_firing { s with OCF := false, GIE := false } h]
  rfl

/-- Serving the conversion's completion, written out (R181, R217, R218). -/
theorem serveEvent_conversionComplete (s : State) :
    serveEvent .conversionComplete s = .next { s with AS := s.ADH ++ s.ADL, ADIF := false, GIE := true } := by
  rw [serveEvent, runHandler, trapEntry_conversionComplete, execHCc_eq]
  rfl

/-- One enabled dispatch is the served handler's effect, written out (R199). -/
theorem dispatchOne_effect (s : State) (h : s.canDispatch = true) :
    (s.ZCF = true ∧ ∃ c, calcPort (mapPort s.AS) = some c ∧
      dispatchOne s = .next { zeroCrossNext c s with ZCF := false, GIE := true }) ∨
    (s.ZCF = false ∧ s.OCF = true ∧ s.OCIE = true ∧ s.CST = .armed ∧
      dispatchOne s = .next { s with
        TRIG := true, OCIE := true, CS := .div8, OCF := false, OCR := s.TCNT + 149#8, TDS := .idle, CST := .firing
        GIE := true }) ∨
    (s.ZCF = false ∧ s.OCF = true ∧ s.OCIE = true ∧ s.CST = .firing ∧
      dispatchOne s = .next { s with TRIG := false, OCF := false, GIE := true }) ∨
    (s.ZCF = false ∧ (s.OCF && s.OCIE) = false ∧ s.ADIF = true ∧
      dispatchOne s = .next { s with AS := s.ADH ++ s.ADL, ADIF := false, GIE := true }) := by
  have hg : s.GIE = true := by rw [canDispatch_eq] at h; simp_all
  by_cases hz : s.ZCF = true
  · rw [dispatchOne_serves s .zeroCross hg (by rw [pendingEvent_eq]; simp [hz])]
    exact .inl ⟨hz, serveEvent_zeroCross s⟩
  · have hz' : s.ZCF = false := by simpa using hz
    by_cases hm : (s.OCF && s.OCIE) = true
    · have ho : s.OCF = true ∧ s.OCIE = true := by simpa using hm
      rw [dispatchOne_serves s .timerCompare hg (by rw [pendingEvent_eq]; simp [hz', ho])]
      by_cases hc : s.CST = .armed
      · exact .inr (.inl ⟨hz', ho.1, ho.2, hc, serveEvent_timerCompare_armed s hc⟩)
      · have hf : s.CST = .firing := by cases h : s.CST <;> simp_all
        exact .inr (.inr (.inl ⟨hz', ho.1, ho.2, hf, serveEvent_timerCompare_firing s hf⟩))
    · have hm' : (s.OCF && s.OCIE) = false := by simpa using hm
      have ha : s.ADIF = true := by rw [canDispatch_eq] at h; simp_all
      rw [dispatchOne_serves s .conversionComplete hg (by rw [pendingEvent_eq]; simp [hz', ha, hm'])]
      exact .inr (.inr (.inr ⟨hz', hm', ha, serveEvent_conversionComplete s⟩))

/-- Each enabled dispatch leaves one event fewer waiting (R198: "each dispatch clears one pending flag and no handler sets
one"). -/
theorem dispatchOne_waiting (s : State) (h : s.canDispatch = true) :
    ∃ t, dispatchOne s = .next t ∧ t.waiting < s.waiting ∧ t.GIE = true := by
  rcases dispatchOne_effect s h with ⟨hz, c, -, e⟩ | ⟨hz, ho, hi, -, e⟩ | ⟨hz, ho, hi, -, e⟩ | ⟨hz, hm, ha, e⟩
  · refine ⟨_, e, ?_, rfl⟩
    cases c <;> simp [State.waiting, zeroCrossNext, hz]
  · exact ⟨_, e, by simp [State.waiting, hz, ho, hi], rfl⟩
  · exact ⟨_, e, by simp [State.waiting, hz, ho, hi], rfl⟩
  · refine ⟨_, e, ?_, rfl⟩
    simp [State.waiting, hz, ha]

/-- With enough rounds the loop completes, and leaves nothing to dispatch (R198, R201). -/
theorem dispatchLoop_next (k : Nat) (s : State) (h : s.waiting ≤ k) :
    ∃ t, dispatchLoop k s = .next t ∧ t.canDispatch = false := by
  induction k generalizing s with
  | zero =>
    refine ⟨s, rfl, ?_⟩
    rw [canDispatch_eq]
    simp only [State.waiting] at h
    cases hz : s.ZCF <;> cases hm : (s.OCF && s.OCIE) <;> cases ha : s.ADIF <;> simp_all
  | succ k ih =>
    cases hc : s.canDispatch with
    | false => exact ⟨s, by simp [dispatchLoop, hc], hc⟩
    | true =>
      obtain ⟨t, ht, hw, -⟩ := dispatchOne_waiting s hc
      obtain ⟨u, hu, hq⟩ := ih t (by omega)
      exact ⟨u, by simp [dispatchLoop, hc, ht, hu], hq⟩

/-- More rounds than events waiting change nothing. -/
theorem dispatchLoop_fuel (j k : Nat) (s : State) (hj : s.waiting ≤ j) (hk : s.waiting ≤ k) :
    dispatchLoop j s = dispatchLoop k s := by
  induction j generalizing s k with
  | zero =>
    obtain ⟨t, ht, hq⟩ := dispatchLoop_next 0 s hj
    cases ht
    cases k <;> simp [dispatchLoop, hq]
  | succ j ih =>
    cases hc : s.canDispatch with
    | false => cases k <;> simp [dispatchLoop, hc]
    | true =>
      obtain ⟨t, ht, hw, -⟩ := dispatchOne_waiting s hc
      cases k with
      | zero => omega
      | succ k => simp only [dispatchLoop, hc, if_true, ht, andThen_next]; exact ih k t (by omega) (by omega)

/-- Three events at most wait. -/
theorem waiting_le_three (s : State) : s.waiting ≤ 3 := by
  have h1 := Bool.toNat_le s.ZCF
  have h2 := Bool.toNat_le (s.OCF && s.OCIE)
  have h3 := Bool.toNat_le s.ADIF
  simp only [State.waiting]; omega

/-- `RUN` completes and leaves nothing to dispatch (R198). -/
theorem runAll_next (s : State) : ∃ t, runAll s = .next t ∧ t.canDispatch = false :=
  dispatchLoop_next 3 s (waiting_le_three s)

/-- `RUN` with nothing to dispatch does nothing (R198). -/
theorem runAll_idle (s : State) (h : s.canDispatch = false) : runAll s = .next s := by
  simp [runAll, dispatchLoop, h]

/-- `RUN` with something to dispatch is one dispatch and `RUN` again (R198). -/
theorem runAll_unfold (s : State) (h : s.canDispatch = true) : runAll s = andThen (dispatchOne s) runAll := by
  obtain ⟨t, ht, hw, -⟩ := dispatchOne_waiting s h
  have h3 := waiting_le_three s
  simp only [runAll, dispatchLoop, h, if_true, ht, andThen_next]
  exact dispatchLoop_fuel 2 3 t (by omega) (by omega)

/-- A property that every enabled dispatch keeps, `RUN` keeps: the induction of R198, packaged once. -/
theorem runAll_induct (P : State → Prop)
    (hd : ∀ s t, P s → s.canDispatch = true → dispatchOne s = .next t → P t) :
    ∀ s t, P s → runAll s = .next t → P t := by
  have loop : ∀ k s t, P s → dispatchLoop k s = .next t → P t := by
    intro k
    induction k with
    | zero => intro s t hs h; cases h; exact hs
    | succ k ih =>
      intro s t hs h
      cases hc : s.canDispatch with
      | false => simp only [dispatchLoop, hc] at h; cases h; exact hs
      | true =>
        obtain ⟨u, hu, -, -⟩ := dispatchOne_waiting s hc
        simp only [dispatchLoop, hc, if_true, hu, andThen_next] at h
        exact ih u t (hd s u hs hc hu) h
  exact loop 3

/-- `TICK` completes (R196). -/
theorem tickLoop_next (n : Nat) (s : State) : ∃ t, tickLoop n s = .next t := by
  induction n generalizing s with
  | zero => exact ⟨s, rfl⟩
  | succ n ih =>
    obtain ⟨u, hu, -⟩ := runAll_next (timerAgent s)
    obtain ⟨t, ht⟩ := ih u
    exact ⟨t, by simp [tickLoop, hu, ht]⟩

/-- A property that the timer's ticks and the dispatches keep, `TICK` keeps (R196). -/
theorem tickLoop_induct (P : State → Prop) (ha : ∀ s, P s → P (timerAgent s))
    (hd : ∀ s t, P s → s.canDispatch = true → dispatchOne s = .next t → P t) :
    ∀ n s t, P s → tickLoop n s = .next t → P t := by
  intro n
  induction n with
  | zero => intro s t hs h; cases h; exact hs
  | succ n ih =>
    intro s t hs h
    obtain ⟨u, hu, -⟩ := runAll_next (timerAgent s)
    simp only [tickLoop, hu, andThen_next] at h
    exact ih u t (runAll_induct P hd _ u (ha s hs) hu) h

end Sys2Proof.Machine
end

