-- ==== Sys2Proof/Laws/Step.lean ====
section
/-! SUPPORT. What one step can do, said once, and the induction over its parts. -/

namespace Sys2Proof.Machine

/-- A word at a port never selects a handler: a handler's vector is read off the state (R86). -/
theorem decodePort_not_handler (w : PortWord) (i : Instr) (h : decodePort w = .ok i) :
    i ≠ .hZc ∧ i ≠ .hCm ∧ i ≠ .hCc := by
  cases w <;> simp only [decodePort, decodeTcmd12] at h
  case tcmd12 => split at h <;> (try split at h) <;> cases h <;> simp
  all_goals (cases h; simp)

/-- A stimulus word never selects a handler (R87). -/
theorem decodeStim16_not_handler (w : Stim16) (i : Instr) (h : decodeStim16 w = .ok i) :
    i ≠ .hZc ∧ i ≠ .hCm ∧ i ≠ .hCc := by
  simp only [decodeStim16, bareStimulus] at h
  split at h <;> (try split at h) <;> cases h <;> simp

/-- A word at a port never selects `RUN` or `TICK` (R84, R85). -/
theorem decodePort_not_loop (w : PortWord) (i : Instr) (h : decodePort w = .ok i) : i ≠ .run ∧ ∀ n, i ≠ .tick n := by
  cases w <;> simp only [decodePort, decodeTcmd12] at h
  case tcmd12 => split at h <;> (try split at h) <;> cases h <;> simp
  all_goals (cases h; simp)

/-- A stimulus word never selects a pure function or a command (R87, R190). -/
theorem decodeStim16_is_stimulus (w : Stim16) (i : Instr) (h : decodeStim16 w = .ok i) :
    i = .rst ∨ i = .start ∨ i = .zc ∨ (∃ v, i = .adc v) ∨ (∃ n, i = .tick n) ∨ i = .cm ∨ i = .run := by
  simp only [decodeStim16, bareStimulus] at h
  split at h <;> (try split at h) <;> cases h <;> simp

/-- A port's word is never refused for an empty event vector (R85). -/
theorem decodePort_not_nothing (w : PortWord) : decodePort w ≠ .error .nothingPending := by
  intro h
  cases w <;> simp only [decodePort, decodeTcmd12] at h
  case tcmd12 => split at h <;> (try split at h) <;> cases h
  all_goals cases h

/-- A stimulus word is never refused for an empty event vector (R88). -/
theorem decodeStim16_not_nothing (w : Stim16) : decodeStim16 w ≠ .error .nothingPending := by
  intro h
  simp only [decodeStim16, bareStimulus] at h
  split at h <;> (try split at h) <;> cases h

/-- What was decoded runs to a next state only as an operation, or where the event vector was empty. -/
theorem runDecoded_next (r : Except DecodeError Instr) (s t : State) (hr : r ≠ .error .nothingPending)
    (h : runDecoded r s = .next t) : ∃ i, r = .ok i ∧ exec i s = .next t := by
  cases r with
  | ok i => exact ⟨i, rfl, h⟩
  | error e =>
    cases e with
    | reservedTcmd12 => cases h
    | invalidStimulus => cases h
    | nothingPending => exact absurd rfl hr

/-- Everything an entry's step to a next state can be (R190). -/
theorem runEntry_cases (e : Entry) (s t : State) (h : runEntry e s = .next t) :
    (∃ w i, e = .stim w ∧ decodeStim16 w = .ok i ∧ exec i s = .next t) ∨
    (e = .dispatch ∧ dispatchOne s = .next t) ∨
    (e = .tick ∧ t = timerAgent s) := by
  cases e with
  | stim w =>
    obtain ⟨i, hi, hx⟩ := runDecoded_next _ s t (decodeStim16_not_nothing w) h
    exact .inl ⟨w, i, rfl, hi, hx⟩
  | dispatch => exact .inr (.inl ⟨rfl, h⟩)
  | tick => cases h; exact .inr (.inr ⟨rfl, rfl⟩)

/-- A step of the assembled block with an entry to come is that entry. -/
theorem step_entry (s : State) (e : Entry) (rest : List Entry) (hb : s.bench = []) (hs : s.schedule = e :: rest) :
    step s = runEntry e { s with schedule := rest } := by
  simp only [step, runNext, runScheduled, hb, hs]

/-- A step of the assembled block with nothing to come is the dispatcher's. -/
theorem step_empty (s : State) (hb : s.bench = []) (hs : s.schedule = []) : step s = dispatchOne s := by
  simp only [step, runNext, runScheduled, hb, hs]

/-- A step with a sub-block's word to come is that word's operation, or its refusal. -/
theorem step_bench (s : State) (w : PortWord) (rest : List PortWord) (hb : s.bench = w :: rest) :
    step s = runDecoded (decodePort w) { s with bench := rest } := by
  simp only [step, runNext, hb]

/-- The dispatcher's step. -/
theorem step_dispatcher (s : State) (rest : List Entry) (h : s.DispatcherNext rest) :
    step s = dispatchOne { s with schedule := rest } := by
  obtain ⟨hb, hs | ⟨hs, rfl⟩⟩ := h
  · rw [step_entry s _ _ hb hs]; rfl
  · rw [step_empty s hb hs]
    congr 1
    cases s; simp_all

/-- Everything a step to a next state can be (R190, R200). -/
theorem step_cases (s t : State) (h : step s = .next t) :
    (∃ w rest i, s.bench = w :: rest ∧ decodePort w = .ok i ∧ exec i { s with bench := rest } = .next t) ∨
    (s.bench = [] ∧ s.schedule = [] ∧ dispatchOne s = .next t) ∨
    (s.bench = [] ∧ ∃ e rest, s.schedule = e :: rest ∧
      ((∃ w i, e = .stim w ∧ decodeStim16 w = .ok i ∧ exec i { s with schedule := rest } = .next t) ∨
       (e = .dispatch ∧ dispatchOne { s with schedule := rest } = .next t) ∨
       (e = .tick ∧ t = timerAgent { s with schedule := rest }))) := by
  by_cases hb : s.bench = []
  · by_cases hs : s.schedule = []
    · rw [step_empty s hb hs] at h; exact .inr (.inl ⟨hb, hs, h⟩)
    · obtain ⟨e, rest, hs⟩ := List.exists_cons_of_ne_nil hs
      rw [step_entry s e rest hb hs] at h
      exact .inr (.inr ⟨hb, e, rest, hs, runEntry_cases e _ t h⟩)
  · obtain ⟨w, rest, hb⟩ := List.exists_cons_of_ne_nil hb
    rw [step_bench s w rest hb] at h
    obtain ⟨i, hi, hx⟩ := runDecoded_next _ _ t (decodePort_not_nothing w) h
    exact .inl ⟨w, rest, i, hb, hi, hx⟩

/-- A dispatch, enabled or not, keeps what every enabled dispatch keeps. -/
theorem dispatchOne_induct (P : State → Prop)
    (hd : ∀ s t, P s → s.canDispatch = true → dispatchOne s = .next t → P t) (s t : State) (hp : P s)
    (h : dispatchOne s = .next t) : P t := by
  cases hc : s.canDispatch with
  | false => rw [dispatchOne_disabled _ hc] at h; cases h; exact hp
  | true => exact hd _ _ hp hc h

/-- What the timer agent, a dispatch and every operation but the handlers and the two loops keep, a step keeps: the loops
are dispatches and ticks. -/
theorem step_induct (P : State → Prop) (hs : ∀ s b l, P s → P { s with bench := b, schedule := l })
    (ha : ∀ s, P s → P (timerAgent s))
    (hd : ∀ s t, P s → s.canDispatch = true → dispatchOne s = .next t → P t)
    (hi : ∀ i s t, P s → i ≠ .hZc → i ≠ .hCm → i ≠ .hCc → i ≠ .run → (∀ n, i ≠ .tick n) →
      exec i s = .next t → P t) :
    ∀ s t, P s → step s = .next t → P t := by
  have hexec : ∀ i s t, P s → i ≠ .hZc ∧ i ≠ .hCm ∧ i ≠ .hCc → exec i s = .next t → P t := by
    intro i s t hp hn hx
    by_cases h1 : i = .run
    · subst h1; exact runAll_induct P hd _ _ hp hx
    · by_cases h2 : ∃ n, i = .tick n
      · obtain ⟨n, rfl⟩ := h2; exact tickLoop_induct P ha hd _ _ _ hp hx
      · exact hi i _ t hp hn.1 hn.2.1 hn.2.2 h1 (fun n hn => h2 ⟨n, hn⟩) hx
  intro s t hp h
  rcases step_cases s t h with ⟨w, rest, i, -, hw, hx⟩ | ⟨-, -, hx⟩ |
    ⟨-, e, rest, -, ⟨w, i, -, hw, hx⟩ | ⟨-, hx⟩ | ⟨-, rfl⟩⟩
  · exact hexec i _ t (hs _ rest s.schedule hp) (decodePort_not_handler w i hw) hx
  · exact dispatchOne_induct P hd _ _ hp hx
  · exact hexec i _ t (hs _ s.bench rest hp) (decodeStim16_not_handler w i hw) hx
  · exact dispatchOne_induct P hd _ _ (hs _ s.bench rest hp) hx
  · exact ha _ (hs _ s.bench rest hp)

/-- A dispatch takes nothing from the schedule or the bench, and computes nothing at an output port. -/
theorem dispatchOne_keeps_queues (s t : State) (h : dispatchOne s = .next t) :
    t.schedule = s.schedule ∧ t.bench = s.bench ∧ t.ports = s.ports := by
  cases hc : s.canDispatch with
  | false => rw [dispatchOne_disabled s hc] at h; cases h; exact ⟨rfl, rfl, rfl⟩
  | true =>
    rcases dispatchOne_effect s hc with ⟨-, c, -, e⟩ | ⟨-, -, -, -, e⟩ | ⟨-, -, -, -, e⟩ | ⟨-, -, -, e⟩ <;>
      rw [e] at h <;> cases h
    · cases c <;> exact ⟨rfl, rfl, rfl⟩
    all_goals exact ⟨rfl, rfl, rfl⟩

/-- A `RUN` or a `TICK` takes nothing from the schedule or the bench, and computes nothing at an output port. -/
theorem tickLoop_keeps_queues (n : Nat) (s t : State) (h : tickLoop n s = .next t) :
    t.schedule = s.schedule ∧ t.bench = s.bench ∧ t.ports = s.ports :=
  tickLoop_induct (fun u => u.schedule = s.schedule ∧ u.bench = s.bench ∧ u.ports = s.ports)
    (fun u hu => by simpa using hu)
    (fun u v hu _ hd => by
      obtain ⟨a, b, c⟩ := dispatchOne_keeps_queues u v hd
      exact ⟨a.trans hu.1, b.trans hu.2.1, c.trans hu.2.2⟩)
    n s t ⟨rfl, rfl, rfl⟩ h

/-- The same for `RUN`. -/
theorem runAll_keeps_queues (s t : State) (h : runAll s = .next t) :
    t.schedule = s.schedule ∧ t.bench = s.bench ∧ t.ports = s.ports :=
  runAll_induct (fun u => u.schedule = s.schedule ∧ u.bench = s.bench ∧ u.ports = s.ports)
    (fun u v hu _ hd => by
      obtain ⟨a, b, c⟩ := dispatchOne_keeps_queues u v hd
      exact ⟨a.trans hu.1, b.trans hu.2.1, c.trans hu.2.2⟩)
    s t ⟨rfl, rfl, rfl⟩ h

/-- A stimulus takes nothing from the schedule or the bench, and computes nothing at an output port (R190). -/
theorem stimulus_keeps_queues (w : Stim16) (i : Instr) (s t : State) (hw : decodeStim16 w = .ok i)
    (h : exec i s = .next t) : t.schedule = s.schedule ∧ t.bench = s.bench ∧ t.ports = s.ports := by
  rcases decodeStim16_is_stimulus w i hw with rfl | rfl | rfl | ⟨v, rfl⟩ | ⟨n, rfl⟩ | rfl | rfl <;>
    simp only [exec, execRst, execStart, execZc, execAdc, execTick, execCm, execRun] at h
  · cases h; exact ⟨rfl, rfl, rfl⟩
  · split at h <;> cases h <;> exact ⟨rfl, rfl, rfl⟩
  · cases h; exact ⟨rfl, rfl, rfl⟩
  · split at h <;> cases h <;> exact ⟨rfl, rfl, rfl⟩
  · exact tickLoop_keeps_queues _ s t h
  · cases h; exact ⟨rfl, rfl, rfl⟩
  · exact runAll_keeps_queues s t h

/-- A step of the assembled block takes one entry, and stays in the assembled block. -/
theorem step_takes_entry (s t : State) (hb : s.bench = []) (h : step s = .next t) :
    t.schedule = s.schedule.tail ∧ t.bench = [] := by
  rcases step_cases s t h with ⟨w, rest, i, hb', -⟩ | ⟨-, hs, hx⟩ |
    ⟨-, e, rest, hs, ⟨w, i, -, hw, hx⟩ | ⟨-, hx⟩ | ⟨-, rfl⟩⟩
  · rw [hb] at hb'; cases hb'
  · obtain ⟨a, b, -⟩ := dispatchOne_keeps_queues _ _ hx; rw [a, b, hs]; exact ⟨rfl, hb⟩
  · obtain ⟨a, b, -⟩ := stimulus_keeps_queues w i _ _ hw hx; rw [a, b, hs]; exact ⟨rfl, hb⟩
  · obtain ⟨a, b, -⟩ := dispatchOne_keeps_queues _ _ hx; rw [a, b, hs]; exact ⟨rfl, hb⟩
  · rw [hs]; simpa using hb

/-- A run goes on from a step's next state. -/
theorem core_run_next (n : Nat) (s t : State) (h : step s = .next t) :
    Host.Core.run Sys2Proof.core (n + 1) s = Host.Core.run Sys2Proof.core n t := by
  simp only [Host.Core.run]
  rw [show Sys2Proof.core.step s = .next t from h]

/-- A run ends at a refusal. -/
theorem core_run_refused (n : Nat) (s : State) (r : Refusal) (h : step s = .refused r) :
    Host.Core.run Sys2Proof.core (n + 1) s = .refused r := by
  simp only [Host.Core.run]
  rw [show Sys2Proof.core.step s = .refused r from h]

/-- A command word at its port is `EXEC` of it (R147). -/
theorem runDecoded_tcmd12 (w : Tcmd12) (s : State) : runDecoded (decodePort (.tcmd12 w)) s = execCommand w s := by
  rw [execCommand_decode]
  simp only [runDecoded, decodePort]
  cases hd : decodeTcmd12 w with
  | ok i =>
    unfold decodeTcmd12 at hd
    split at hd
    · cases hd; rfl
    · split at hd
      · cases hd; rfl
      · cases hd
  | error e =>
    unfold decodeTcmd12 at hd
    split at hd
    · cases hd
    · split at hd <;> cases hd
      rfl

end Sys2Proof.Machine
end

