-- ==== Sys2Proof/Laws/Ticks.lean ====
section
/-! SUPPORT. What a run of ticks does to a program that is counting, up to its match and at it. -/

namespace Sys2Proof.Machine

/-- Two runs of ticks are one (R196). -/
theorem tickLoop_add (m n : Nat) (s : State) : tickLoop (m + n) s = andThen (tickLoop m s) (tickLoop n) := by
  induction m generalizing s with
  | zero => simp [tickLoop]
  | succ m ih =>
    obtain ⟨u, hu, -⟩ := runAll_next (timerAgent s)
    rw [show m + 1 + n = (m + n) + 1 by omega]
    simp only [tickLoop, hu, andThen_next, ih]

/-- A program counts with `c` ticks to go before the one that matches, and nothing else is pending (R150). -/
structure State.Counting (s : State) (c : Byte) : Prop where
  clocked : s.CS ≠ .stopped
  no_match : s.OCF = false
  enabled : s.OCIE = true
  no_edge : s.ZCF = false
  no_result : s.ADIF = false
  unmasked : s.GIE = true
  target : s.OCR = s.TCNT + c

/-- One tick before the match only counts. -/
theorem runAll_timerAgent_counting (s : State) (c : Byte) (h : s.Counting c) (hc : c ≠ 0#8) :
    runAll (timerAgent s) = .next { s with TCNT := s.TCNT + 1#8 } ∧
    State.Counting { s with TCNT := s.TCNT + 1#8 } (c - 1#8) := by
  have hne : s.atMatch = false := by
    rw [State.atMatch, beq_eq_false_iff_ne, h.target]
    intro e
    have h8 := congrArg BitVec.toNat e
    have := s.TCNT.isLt
    have := c.isLt
    refine hc (BitVec.eq_of_toNat_eq ?_)
    simp at h8 ⊢
    omega
  have e : timerAgent s = { s with TCNT := s.TCNT + 1#8 } := by
    rw [timerAgent_running _ h.clocked, timerTick, hne, Bool.or_false]
  rw [e]
  refine ⟨runAll_idle _ ?_, ⟨h.clocked, h.no_match, h.enabled, h.no_edge, h.no_result, h.unmasked, ?_⟩⟩
  · rw [canDispatch_eq]; simp [h.no_match, h.no_edge, h.no_result]
  · show s.OCR = s.TCNT + 1#8 + (c - 1#8)
    rw [h.target, BitVec.add_assoc]
    congr 1
    rw [BitVec.add_comm, BitVec.sub_add_cancel]

/-- Up to the match, ticks only count. -/
theorem tickLoop_counting (k : Nat) (s : State) (c : Byte) (h : s.Counting c) (hk : k ≤ c.toNat) :
    ∃ a t, t = { s with TCNT := a } ∧ tickLoop k s = .next t ∧ t.Counting (c - BitVec.ofNat 8 k) := by
  induction k generalizing s c with
  | zero => exact ⟨s.TCNT, s, rfl, rfl, by simpa using h⟩
  | succ k ih =>
    have hlt := c.isLt
    obtain ⟨e, h'⟩ := runAll_timerAgent_counting s c h (by rintro rfl; simp at hk)
    have hc1 : (c - 1#8).toNat = c.toNat - 1 := by simp; omega
    obtain ⟨a, t, ht, hl, hA⟩ := ih _ _ h' (by omega)
    refine ⟨a, t, ht, by simp [tickLoop, e, hl], ?_⟩
    have : c - BitVec.ofNat 8 (k + 1) = c - 1#8 - BitVec.ofNat 8 k := by
      apply BitVec.eq_of_toNat_eq
      simp; omega
    rw [this]; exact hA

/-- The tick that matches is followed at once by `H_CM` (R150, R195, R196). -/
theorem tickLoop_match (s : State) (c : Byte) (h : s.Counting c) :
    tickLoop (c.toNat + 1) s =
      andThen (runHandler .timerCompare { s with TCNT := s.TCNT + c + 1#8, GIE := false })
        fun t => runAll (trapReturn t) := by
  obtain ⟨a, t, ht, hl, hA⟩ := tickLoop_counting c.toNat s c h (Nat.le_refl _)
  have hat : t.TCNT = s.OCR := by
    have := hA.target
    simp at this
    rw [← this, ht]
  have ha : a = s.TCNT + c := by rw [← h.target, ← hat, ht]
  have hmt : t.atMatch = true := by simp [State.atMatch, hat, show t.OCR = s.OCR by rw [ht]]
  have hta : timerAgent t = { t with OCF := true, TCNT := t.TCNT + 1#8 } := by
    rw [timerAgent_running _ hA.clocked, timerTick, hmt, Bool.or_true]
  have hg : (timerAgent t).canDispatch = true := by
    rw [hta, canDispatch_eq]; simp [hA.unmasked, hA.enabled]
  have hp : (timerAgent t).pendingEvent = some .timerCompare := by
    rw [hta, pendingEvent_eq]; simp [hA.no_edge, hA.enabled]
  have he : trapEntry .timerCompare (timerAgent t) = { s with TCNT := s.TCNT + c + 1#8, GIE := false } := by
    rw [hta, ht, ha]; simp [h.no_match]
  rw [tickLoop_add, hl]
  simp only [andThen_next, tickLoop]
  rw [runAll_unfold _ hg, dispatchOne_serves _ _ (by rw [hta]; exact hA.unmasked) hp, serveEvent, he]
  obtain ⟨v, hv⟩ := runHandler_next .timerCompare { s with TCNT := s.TCNT + c + 1#8, GIE := false }
  obtain ⟨u, hu, -⟩ := runAll_next (trapReturn v)
  simp [hv, hu]

end Sys2Proof.Machine
end

