-- ==== Sys2Proof/Machine/TraceText.lean ====
section
/-! DEFINITION. The text of an event trace (30_encoding.md R93, R94), read as a list of characters into the words it
stands for, and the schedule or the port values that a trace stands for. Log 19. -/

namespace Sys2Proof.Machine.TraceText

/-- A text is a list of characters. -/
abbrev Text := List Char

/-- The value of a digit of base 16. -/
def digitValue (c : Char) : Option Nat :=
  let n := c.toNat
  if 48 ≤ n ∧ n ≤ 57 then some (n - 48)
  else if 97 ≤ n ∧ n ≤ 102 then some (n - 87)
  else if 65 ≤ n ∧ n ≤ 70 then some (n - 55)
  else none

/-- The digits of a numeral, most significant first. -/
def readDigits (base : Nat) : Nat → Text → Option Nat
  | acc, [] => some acc
  | acc, c :: cs =>
    match digitValue c with
    | some v => if v < base then readDigits base (acc * base + v) cs else none
    | none => none

/-- A decimal or `0x` hexadecimal numeral (R93). -/
def readNumber : Text → Option Nat
  | [] => none
  | ['0', 'x'] => none
  | '0' :: 'x' :: digits => readDigits 16 0 digits
  | digits => readDigits 10 0 digits

/-- A finished token, if there is one. -/
def flush (token : Text) : List Text := if token = [] then [] else [token.reverse]

/-- A line's tokens: separated by spaces, with each bracket and comma a token; `;` starts a comment (R93). -/
def tokensFrom (token : Text) : Text → List Text
  | [] => flush token
  | c :: cs =>
    if c = ';' then flush token
    else if c = ' ' then flush token ++ tokensFrom [] cs
    else if c = '(' ∨ c = ')' ∨ c = ',' then flush token ++ [c] :: tokensFrom [] cs
    else tokensFrom (c :: token) cs

/-- The stimuli and pseudo-operations without an argument (R87, R94). -/
def bareLine (name : Text) : Option (List Instr) :=
  if name = ['R', 'S', 'T'] then some [.rst]
  else if name = ['S', 'T', 'A', 'R', 'T'] then some [.start]
  else if name = ['Z', 'C'] then some [.zc]
  else if name = ['C', 'M'] then some [.cm]
  else if name = ['R', 'U', 'N'] then some [.run]
  else if name = ['Z', 'C', 'R'] then some (expandPseudo .zcr)
  else if name = ['C', 'M', 'R'] then some (expandPseudo .cmr)
  else if name = ['N', 'O', 'P'] then some (expandPseudo .nop)
  else if name = ['B', 'O', 'O', 'T'] then some (expandPseudo .boot)
  else none

/-- The stimuli and pseudo-operations with one argument, which must fit its field (R87, R94). -/
def argumentLine (name : Text) (n : Nat) : Option (List Instr) :=
  if name = ['A', 'D', 'C'] then if n < 1024 then some [.adc (BitVec.ofNat 10 n)] else none
  else if name = ['T', 'I', 'C', 'K'] then if n < 4096 then some [.tick (BitVec.ofNat 12 n)] else none
  else if name = ['A', 'D', 'C', 'R'] then if n < 1024 then some (expandPseudo (.adcr (BitVec.ofNat 10 n))) else none
  else if name = ['W', 'A', 'I', 'T'] then if n < 4096 then some (expandPseudo (.wait (BitVec.ofNat 12 n))) else none
  else none

/-- The prescaler that a number names (R93, R25). -/
def prescalerOf (n : Nat) : Option Prescaler :=
  if n = 8 then some .by8 else if n = 64 then some .by64 else if n = 256 then some .by256 else none

/-- Function applications `MAP(s)`, `P2D(p)`, `D2P(d)`, `CALC(p)` and commands `TPROG(N, cc)`, `TSTOP()` (R93). -/
def application (name : Text) (arguments : List Nat) : Option (List Instr) :=
  match arguments with
  | [] => if name = ['T', 'S', 'T', 'O', 'P'] then some [.tstop] else none
  | [a] =>
    if name = ['M', 'A', 'P'] then if a < 1024 then some [.map (BitVec.ofNat 10 a)] else none
    else if name = ['P', '2', 'D'] then if a < 128 then some [.p2d (BitVec.ofNat 7 a)] else none
    else if name = ['D', '2', 'P'] then if a < 16384 then some [.d2p (BitVec.ofNat 14 a)] else none
    else if name = ['C', 'A', 'L', 'C'] then if a < 128 then some [.calcWord (BitVec.ofNat 7 a)] else none
    else none
  | [n, cc] =>
    if name = ['T', 'P', 'R', 'O', 'G'] ∧ cc < 256 then
      (prescalerOf n).map fun p => [.tprog (sel p) (BitVec.ofNat 8 cc)]
    else none
  | _ => none

/-- The arguments between the brackets, after the opening one. -/
def readArguments : List Text → Option (List Nat)
  | [[')']] => some []
  | [a, [')']] => (readNumber a).map fun n => [n]
  | a :: [','] :: rest =>
    match readNumber a, readArguments rest with
    | some n, some ns => some (n :: ns)
    | _, _ => none
  | _ => none

/-- The operations of a line; a blank line has none (R93). -/
def lineOperations : List Text → Option (List Instr)
  | [] => some []
  | [name] => bareLine name
  | name :: ['('] :: rest =>
    match readArguments rest with
    | some ns => application name ns
    | none => none
  | [name, a] =>
    match readNumber a with
    | some n => argumentLine name n
    | none => none
  | _ => none

/-- One line of a trace, as the words it stands for. -/
def readLine (line : Text) : Option (List CodeWord) :=
  (lineOperations (tokensFrom [] line)).map fun is => is.map encode

/-- The lines of a text. -/
def linesFrom (line : Text) : Text → List Text
  | [] => [line.reverse]
  | c :: cs => if c = '\n' then line.reverse :: linesFrom [] cs else linesFrom (c :: line) cs

/-- The words of some lines, in order. -/
def readLines : List Text → Option (List CodeWord)
  | [] => some []
  | line :: rest =>
    match readLine line, readLines rest with
    | some ws, some more => some (ws ++ more)
    | _, _ => none

/-- The words as stimuli, if all are. -/
def stimuliOf : List CodeWord → Option (List Stim16)
  | [] => some []
  | .stim16 w :: rest => (stimuliOf rest).map (w :: ·)
  | .port _ :: _ => none
  | .evt3 _ :: _ => none

/-- The words as port values, if all are. -/
def portsOf : List CodeWord → Option (List PortWord)
  | [] => some []
  | .port w :: rest => (portsOf rest).map (w :: ·)
  | .stim16 _ :: _ => none
  | .evt3 _ :: _ => none

/-- A whole trace (R93): stimuli of the assembled block, or port values of sub-blocks driven alone, never both, since in the
assembled block the functions and commands run only inside handlers (R190). -/
def readTrace (text : Text) : Option Trace :=
  match readLines (linesFrom [] text) with
  | none => none
  | some ws =>
    match stimuliOf ws with
    | some stimuli => some (.stimuli stimuli)
    | none => (portsOf ws).map .bench

/-- The state with a trace's words to come (R200, log 3). -/
def load (t : Trace) (s : State) : State :=
  match t with
  | .stimuli ws => { s with schedule := ws.map .stim, bench := [] }
  | .bench ws => { s with bench := ws }

end Sys2Proof.Machine.TraceText
end

