-- ==== Sys2Proof/Tests/Slice0.lean ====
section
/-! SUPPORT. Tests. Expected values are the spec's: 95_test_vectors.md (the section is named at each group) or the rule that
is named; a witness shows that the hypotheses of a statement can hold together, clause by clause. -/

namespace Sys2Proof.Tests

open Sys2Proof Sys2Proof.Machine

/-! ## Small states -/

/-- After `START`. -/
def live : State := { State.reset with GIE := true, HALTED := false, ADBUSY := true }

/-- After `START`, with a sample, Armed, at `TCNT` = 0x20 (95_test_vectors.md 2.8). -/
def sampled (v : Sample) : State := { live with AS := v, TCNT := 0x20#8 }

/-- In mid-pulse: Firing, output on, the pulse program at prescaler 8 running. -/
def pulsing : State :=
  { live with CST := .firing, TRIG := true, TCNT := 0x6F#8, OCR := 0x04#8, CS := .div8, OCIE := true }

/-- With these entries to come. -/
def facing (s : State) (es : List Entry) : State := { s with schedule := es }

/-- With these words to come at the ports of sub-blocks driven alone. -/
def benched (s : State) (ws : List PortWord) : State := { s with bench := ws }

/-! ## Well-formedness: each check refuses an ill-formed term -/

theorem test_wf_p2d_101 : (Instr.p2d 101#7).wellFormed = false := by decide
theorem test_wf_p2d_100 : (Instr.p2d 100#7).wellFormed = true := by decide
theorem test_wf_calc_127 : (Instr.calcWord 127#7).wellFormed = false := by decide
theorem test_wf_tprog_stopped : (Instr.tprog 0b000#3 5#8).wellFormed = false := by decide
theorem test_wf_tprog_256 : (Instr.tprog 0b100#3 5#8).wellFormed = true := by decide

/-! ## Decoding: one word of every operation, written out from R84 to R87 -/

theorem test_decode_map : decode (.port (.mapPort 0b1001011000#10)) = .ok (.map 600#10) := rfl
theorem test_decode_p2d : decode (.port (.p2dPort 0b0110000#7)) = .ok (.p2d 48#7) := rfl
theorem test_decode_d2p : decode (.port (.d2pPort 0b01000001101000#14)) = .ok (.d2p 4200#14) := rfl
theorem test_decode_calc : decode (.port (.calcPort 0b0110000#7)) = .ok (.calcWord 48#7) := rfl
theorem test_decode_tprog : decode (.port (.tcmd12 0b110001001110#12)) = .ok (.tprog 0b100#3 78#8) := rfl
theorem test_decode_tstop : decode (.port (.tcmd12 0b000000000000#12)) = .ok .tstop := rfl
theorem test_decode_hZc : decode (.evt3 0b111#3) = .ok .hZc := rfl
theorem test_decode_hCm : decode (.evt3 0b011#3) = .ok .hCm := rfl
theorem test_decode_hCc : decode (.evt3 0b001#3) = .ok .hCc := rfl
theorem test_decode_rst : decode (.stim16 0b0000000000000000#16) = .ok .rst := rfl
theorem test_decode_start : decode (.stim16 0b0001000000000000#16) = .ok .start := rfl
theorem test_decode_zc : decode (.stim16 0b0010000000000000#16) = .ok .zc := rfl
theorem test_decode_adc : decode (.stim16 0b0011001001011000#16) = .ok (.adc 600#10) := rfl
theorem test_decode_tick : decode (.stim16 0b0100000001001110#16) = .ok (.tick 78#12) := rfl
theorem test_decode_cm : decode (.stim16 0b0101000000000000#16) = .ok .cm := rfl
theorem test_decode_run : decode (.stim16 0b0110000000000000#16) = .ok .run := rfl

/-- Refused words (95_test_vectors.md 2.4, 2.9). -/
theorem test_decode_refused :
    decode (.port (.tcmd12 0x001#12)) = .error .reservedTcmd12 ∧
    decode (.port (.tcmd12 0x200#12)) = .error .reservedTcmd12 ∧
    decode (.stim16 0x0001#16) = .error .invalidStimulus ∧
    decode (.stim16 0x3400#16) = .error .invalidStimulus ∧
    decode (.stim16 0x7000#16) = .error .invalidStimulus ∧
    decode (.evt3 0b000#3) = .error .nothingPending := ⟨rfl, rfl, rfl, rfl, rfl, rfl⟩

/-- The largest legal arguments (95_test_vectors.md 2.9). -/
theorem test_decode_largest :
    decode (.stim16 0x33FF#16) = .ok (.adc 1023#10) ∧
    decode (.stim16 0x4FFF#16) = .ok (.tick 4095#12) := ⟨rfl, rfl⟩

/-- Table words, by the rows' own widths and as whole bytes (log 4). -/
theorem test_table_words :
    decodeTableWord 16 0x3258 = some (.adc 600#10) ∧ decodeTableWord 16 0xC4E = some (.tprog 0b100#3 78#8) ∧
    decodeTableWord 12 0x000 = some .tstop ∧ decodeTableWord 3 0b110 = some .hZc ∧
    decodeTableWord 8 0b010 = some .hCm ∧ decodeTableWord 7 101 = some (.p2d 101#7) ∧
    decodeTableWord 16 0x7000 = none := ⟨rfl, rfl, rfl, rfl, rfl, rfl, rfl⟩

/-! ## Trace text (R93, R94) -/

theorem test_trace_stimulus :
    TraceText.readTrace ['A', 'D', 'C', ' ', '6', '0', '0', ' ', ';', 'x', '\n', 'R', 'U', 'N'] =
      some (.stimuli [0x3258#16, 0x6000#16]) := by decide

theorem test_trace_command :
    TraceText.readTrace ['T', 'P', 'R', 'O', 'G', '(', '2', '5', '6', ',', ' ', '7', '8', ')'] =
      some (.bench [.tcmd12 0xC4E#12]) := by decide

theorem test_trace_pseudo :
    TraceText.readTrace ['W', 'A', 'I', 'T', ' ', '0', 'x', '4', 'e'] =
      some (.stimuli [0x404E#16]) := by decide

/-- A trace drives the assembled block or sub-blocks alone, never both (R190). -/
theorem test_trace_mixed : TraceText.readTrace ['Z', 'C', '\n', 'T', 'S', 'T', 'O', 'P', '(', ')'] = none := by decide

theorem test_trace_too_large : TraceText.readTrace ['A', 'D', 'C', ' ', '1', '0', '2', '4'] = none := by decide

/-! ## The pure functions (95_test_vectors.md 2.1 to 2.3) -/

theorem test_map : (nextState (exec (.map 600#10) live)).map (·.ports.percentOut) = some 48#7 := by decide
theorem test_map_last_linear : (nextState (exec (.map 940#10) live)).map (·.ports.percentOut) = some 89#7 := by decide
theorem test_p2d : (nextState (exec (.p2d 48#7) live)).map (·.ports.delayOut) = some (some 4200#14) := by decide
theorem test_p2d_clamped : (nextState (exec (.p2d 91#7) live)).map (·.ports.delayOut) = some (some 0#14) := by decide

theorem test_d2p_tie :
    (nextState (exec (.d2p 540#14) live)).map (fun t => (t.ports.csOut, t.ports.ccOut)) =
      some (0b011#3, 40#8) := by decide

theorem test_d2p_saturates :
    (nextState (exec (.d2p 13627#14) live)).map (fun t => (t.ports.csOut, t.ports.ccOut)) =
      some (0b100#3, 255#8) := by decide

theorem test_calc_boundary : (nextState (exec (.calcWord 56#7) live)).map (·.ports.tcmdOut) = some 0xC3F#12 := by decide
theorem test_calc_finer : (nextState (exec (.calcWord 57#7) live)).map (·.ports.tcmdOut) = some 0xBF7#12 := by decide

/-! ## The Timer Driver (2.5) -/

/-- The sum wraps, and a stale match is discarded. -/
theorem test_tprog :
    exec (.tprog 0b010#3 59#8) { live with TCNT := 0xF0#8, OCF := true } =
      .next { live with TCNT := 0xF0#8, OCF := false, OCR := 0x2B#8, CS := .div8, OCIE := true } := rfl

/-- A pending match stays pending. -/
theorem test_tstop :
    exec .tstop { live with TCNT := 0x42#8, OCR := 0x42#8, CS := .div8, OCF := true, OCIE := true } =
      .next { live with TCNT := 0x42#8, OCR := 0x42#8, CS := .stopped, OCF := true, OCIE := false } := rfl

/-! ## The handlers (2.6 to 2.8) -/

theorem test_hZc_wraps :
    exec .hZc { sampled 672#10 with TRIG := true, CST := .firing } =
      .next { sampled 672#10 with OCR := 0x17#8, CS := .div64, OCIE := true } := rfl

theorem test_hZc_off : exec .hZc { pulsing with AS := 220#10 } =
    .next { pulsing with AS := 220#10, TRIG := false, CST := .armed, CS := .stopped, OCIE := false } := rfl

theorem test_hCm_armed :
    exec .hCm { live with TCNT := 0x6F#8, CS := .div256, OCIE := true } =
      .next { live with TRIG := true, CST := .firing, TCNT := 0x6F#8, OCR := 0x04#8, CS := .div8, OCIE := true } := rfl

theorem test_hCm_firing : exec .hCm pulsing = .next { pulsing with TRIG := false } := rfl

theorem test_hCc :
    exec .hCc { live with ADL := 0xAC#8, ADH := 0b11#2 } =
      .next { live with ADL := 0xAC#8, ADH := 0b11#2, AS := 940#10 } := rfl

/-! ## Environment operations and dispatch (2.9, 2.10) -/

theorem test_rst :
    (nextState (exec .rst pulsing)).map (fun t => (t.CST, t.TRIG, t.CS, t.GIE, t.HALTED)) =
      some (.armed, false, .stopped, false, true) := rfl

theorem test_start : exec .start State.reset =
    .next { State.reset with ADBUSY := true, GIE := true, HALTED := false } := rfl

theorem test_zc_merges : exec .zc { live with ZCF := true } = .next { live with ZCF := true } := rfl

theorem test_adc : exec (.adc 600#10) live =
    .next { live with ADL := 0x58#8, ADH := 0b10#2, ADBUSY := false, ADIF := true } := rfl

theorem test_tick_wraps :
    (nextState (exec (.tick 3#12) { live with CS := .div8, TCNT := 0xFE#8, OCR := 0x10#8 })).map
      (fun t => (t.TCNT, t.OCF)) = some (0x01#8, false) := by decide

theorem test_tick_masked :
    (nextState (exec (.tick 1#12) { live with CS := .div8, TCNT := 0x10#8, OCR := 0x10#8 })).map
      (fun t => (t.TCNT, t.OCF, t.TRIG)) = some (0x11#8, true, false) := by decide

theorem test_cm : exec .cm live = .next { live with OCF := true } := rfl

/-- EVT3 = 111: `H_ZC` with the old sample, then `H_CC`; `H_CM` does not run. -/
theorem test_run_tie :
    (nextState (exec .run { pulsing with ZCF := true, OCF := true, ADIF := true, ADL := 0x58#8, ADH := 0b10#2 })).map
      (fun t => (t.AS, t.CST, t.TRIG, t.CS, t.OCF)) = some (600#10, .armed, false, .stopped, true) := by decide

/-- EVT3 = 010 in the Armed state. -/
theorem test_run_match :
    (nextState (exec .run { live with OCF := true, OCIE := true, CS := .div256 })).map
      (fun t => (t.CST, t.TRIG, t.CS, t.OCF, t.GIE)) = some (.firing, true, .div8, false, true) := by decide

/-! ## Placed words -/

theorem test_fetch_first :
    step (State.reset.withFetchWord 16 0x1000) =
      .next { State.reset with ADBUSY := true, GIE := true, HALTED := false } := rfl

theorem test_fetch_handler :
    (nextState (step (State.reset.withFetchWord 3 0b010))).map (fun t => (t.CST, t.TRIG, t.OCR)) =
      some (.firing, true, 149#8) := by decide

/-! ## Witnesses: the hypotheses of each statement can hold together -/

theorem test_witness_EncodedOperationDecodesToItself :
    (Instr.tprog 0b010#3 255#8).wellFormed = true ∧ (Instr.calcWord 100#7).wellFormed = true := by decide

theorem test_witness_DecodedWordEncodesBack :
    decode (.stim16 0x33FF#16) = .ok (.adc 1023#10) ∧ decode (.port (.tcmd12 0xCFF#12)) = .ok (.tprog 0b100#3 255#8) :=
  ⟨rfl, rfl⟩

/-- A stimulus in the assembled block, and a port's word with the block's schedule waiting behind it. -/
theorem test_witness_StepRunsPresentedOperation :
    (∃ s : State, s.bench = [] ∧ s.schedule = [.stim 0x6000#16, .tick] ∧ decode (.stim16 0x6000#16) = .ok .run) ∧
    (∃ s : State, s.bench = [.mapPort 600#10] ∧ s.schedule = [.tick] ∧ decode (.port (.mapPort 600#10)) = .ok (.map 600#10)) :=
  ⟨⟨facing live [.stim 0x6000#16, .tick], rfl, rfl, rfl⟩, ⟨benched (facing live [.tick]) [.mapPort 600#10], rfl, rfl, rfl⟩⟩

/-- All three clauses of a dispatch, at the vectors 100, 010 and 001, the last with nothing scheduled. -/
theorem test_witness_StepDispatchesByPriority :
    (∃ s : State, s.DispatcherNext [.tick] ∧ s.GIE = true ∧ s.ZCF = true) ∧
    (∃ s : State, s.DispatcherNext [] ∧ s.GIE = true ∧ s.ZCF = false ∧ s.OCF = true ∧ s.OCIE = true) ∧
    (∃ s : State, s.DispatcherNext [] ∧ s.schedule = [] ∧ s.GIE = true ∧ s.ZCF = false ∧ (s.OCF && s.OCIE) = false ∧
      s.OCF = true ∧ s.ADIF = true) :=
  ⟨⟨facing { live with ZCF := true } [.dispatch, .tick], ⟨rfl, .inl rfl⟩, by decide⟩,
   ⟨facing { pulsing with OCF := true } [.dispatch], ⟨rfl, .inl rfl⟩, by decide⟩,
   ⟨{ live with OCF := true, ADIF := true }, ⟨rfl, .inr ⟨rfl, rfl⟩⟩, by decide⟩⟩

theorem test_witness_StepDispatchRunsDecodedHandler :
    ∃ s : State, s.DispatcherNext [] ∧ s.GIE = true ∧ decode (.evt3 s.evt3) = .ok .hCm :=
  ⟨facing { pulsing with OCF := true, ADIF := true } [.dispatch], ⟨rfl, .inl rfl⟩, rfl, rfl⟩

theorem test_witness_StepTicksRunningTimer :
    (facing pulsing [.tick]).bench = [] ∧ (facing pulsing [.tick]).schedule = [.tick] ∧ (facing pulsing [.tick]).CS ≠ .stopped ∧
    (facing live [.tick]).bench = [] ∧ (facing live [.tick]).schedule = [.tick] ∧ (facing live [.tick]).CS = .stopped := by decide

theorem test_witness_StepIdlesWhenNothingIsEnabled :
    (∃ s : State, s.DispatcherNext [.tick] ∧ s.GIE = false ∧ s.evt3 = 0b100#3) ∧
    (∃ s : State, s.DispatcherNext [] ∧ s.schedule = [] ∧ s.GIE = true ∧ s.OCF = true ∧ s.evt3 = 0b000#3) :=
  ⟨⟨facing { State.reset with ZCF := true } [.dispatch, .tick], ⟨rfl, .inl rfl⟩, by decide⟩,
   ⟨{ live with OCF := true }, ⟨rfl, .inr ⟨rfl, rfl⟩⟩, by decide⟩⟩

/-- One scheduled edge, then the handler it makes pending; and a schedule that ends with nothing enabled. -/
theorem test_witness_ScheduleEndsWithDispatch :
    (∃ s t : State, s.bench = [] ∧ s.schedule.length = 1 ∧
      Host.Core.run Sys2Proof.core s.schedule.length s = .next t ∧ t.canDispatch = true) ∧
    (∃ s t : State, s.bench = [] ∧ Host.Core.run Sys2Proof.core s.schedule.length s = .next t ∧ t.canDispatch = false) :=
  ⟨⟨facing live [.stim 0x2000#16], { live with ZCF := true }, rfl, rfl, rfl, by decide⟩, ⟨live, live, rfl, rfl, by decide⟩⟩

/-- After the conversion's result 5 is latched. -/
def served : State := { live with ADL := 5#8, AS := 5#10 }

/-- A pending conversion at moment 0, dispatched there, and nothing ever after. -/
theorem test_witness_FairDispatcherServesPendingEvent :
    ∃ (steps : Nat → Entry) (states : Nat → State), OpenRun steps states ∧ WeaklyFair steps states ∧
      (∀ n, steps n ≠ .stim 0x0000#16) ∧ (states 0).canDispatch = true :=
  ⟨fun _ => .dispatch, fun n => match n with | 0 => { live with ADIF := true, ADL := 5#8 } | _ + 1 => served, by
    intro n
    cases n with
    | zero => rfl
    | succ n => exact (rfl : dispatchOne served = .next served),
   fun n _ => ⟨n, Nat.le_refl n, rfl⟩, fun n h => (by cases h), by decide⟩

/-- A pending zero-cross at moment 0, dispatched there, and nothing ever after. -/
theorem test_witness_FairDispatcherServesZeroCross :
    ∃ (steps : Nat → Entry) (states : Nat → State), OpenRun steps states ∧ WeaklyFair steps states ∧
      (∀ n, steps n ≠ .stim 0x0000#16) ∧ (states 0).GIE = true ∧ (states 0).ZCF = true :=
  ⟨fun _ => .dispatch, fun n => match n with | 0 => { live with ZCF := true } | _ + 1 => live, by
    intro n
    cases n with
    | zero => rfl
    | succ n => exact (rfl : dispatchOne live = .next live),
   fun n _ => ⟨n, Nat.le_refl n, rfl⟩, fun n h => (by cases h), rfl, rfl⟩

/-- A scheduled stimulus that is no reset and changes a cell of the Timer Driver. -/
theorem test_witness_FunctionsAndCommandsRunOnlyInHandlers :
    ∃ s t : State, s.bench = [] ∧ step s = .next t ∧ s.schedule.head? ≠ some (.stim 0x0000#16) ∧ t.CS ≠ s.CS :=
  ⟨facing { pulsing with ZCF := true } [.stim 0x6000#16], _, rfl, rfl, by decide, by decide⟩

/-- The boundary words of the reserved ranges (95_test_vectors.md 2.4, 2.9). -/
theorem test_witness_StepRefusesReservedWords :
    (0x001#12 ≠ 0x000#12 ∧ (0x001#12).toNat < 0xA00) ∧ (0x9FF#12).toNat < 0xA00 ∧ 0xCFF < (0xD00#12).toNat ∧
    refusalOf (step (benched live [.tcmd12 0x9FF#12])) = some (.reservedTcmd12 { live with REFUSED := true }) ∧
    refusalOf (step (facing live [.stim 0x3400#16])) = some (.invalidStimulus { live with REFUSED := true }) ∧
    decodeStim16 0x3400#16 = .error .invalidStimulus := by
  refine ⟨by decide, by decide, by decide, rfl, rfl, rfl⟩

theorem test_witness_PlacedTableWordRunsNext :
    (decodeTableWord 16 0xC4E = some (.tprog 0b100#3 78#8) ∧
      encode (.tprog 0b100#3 78#8) = .port (.tcmd12 0xC4E#12)) ∧
    (decodeTableWord 16 0x4001 = some (.tick 1#12) ∧ encode (.tick 1#12) = .stim16 0x4001#16) ∧
    decodeTableWord 3 0b111 = some (handlerOf .zeroCross) := by
  refine ⟨⟨rfl, by decide⟩, ⟨rfl, by decide⟩, rfl⟩

theorem test_witness_MapIsMonotoneOntoItsImage :
    ∃ t u, exec (.map 940#10) live = .next t ∧ exec (.map 941#10) live = .next u ∧
      (940#10).toNat < (941#10).toNat ∧ t.ports.percentOut = 89#7 ∧ u.ports.percentOut = 100#7 :=
  ⟨_, _, rfl, rfl, by decide, by decide, by decide⟩

theorem test_witness_ZeroPercentStopsTheTimer : mapPort (sampled 220#10).AS = 0#7 := by decide

theorem test_witness_PercentToDelayResult : (100#7).toNat ≤ 100 := by decide

theorem test_witness_DelayToProgramStrictBoundaries :
    (424#14).toNat < 425 ∧ (425 ≤ (425#14).toNat ∧ (3399#14).toNat < 3400) ∧ 3400 ≤ (3400#14).toNat := by decide

theorem test_witness_CompareCountSaturatesOnlyOutOfDomain :
    (∃ t, exec (.d2p 424#14) live = .next t ∧ (424#14).toNat < 425 ∧ t.ports.ccOut = 253#8) ∧
    (∃ t, exec (.d2p 425#14) live = .next t ∧ 425 ≤ (425#14).toNat ∧ t.ports.ccOut = 31#8) ∧
    (∃ t, exec (.d2p 3399#14) live = .next t ∧ (3399#14).toNat < 3400 ∧ t.ports.ccOut = 254#8) ∧
    (∃ t, exec (.d2p 9999#14) live = .next t ∧ (9999#14).toNat ≤ 9999 ∧ t.ports.ccOut = 186#8) ∧
    (∃ t, exec (.d2p 13626#14) live = .next t ∧ (13626#14).toNat < 13627 ∧ t.ports.ccOut = 254#8) ∧
    (∃ t, exec (.d2p 13627#14) live = .next t ∧ 13627 ≤ (13627#14).toNat ∧ t.ports.ccOut = 255#8) :=
  ⟨⟨_, rfl, by decide, by decide⟩, ⟨_, rfl, by decide, by decide⟩, ⟨_, rfl, by decide, by decide⟩,
   ⟨_, rfl, by decide, by decide⟩, ⟨_, rfl, by decide, by decide⟩, ⟨_, rfl, by decide, by decide⟩⟩

theorem test_witness_CalcCommandResult : (0#7).toNat ≤ 100 ∧ (100#7).toNat ≤ 100 := by decide

/-- The ends of the ranges (95_test_vectors.md 2.3). -/
theorem test_witness_CalcTableShape :
    (∃ t, exec (.calcWord 1#7) live = .next t ∧ t.ports.tcmdOut = 0xCA6#12) ∧
    (∃ t, exec (.calcWord 56#7) live = .next t ∧ t.ports.tcmdOut = 0xC3F#12) ∧
    (∃ t, exec (.calcWord 57#7) live = .next t ∧ t.ports.tcmdOut = 0xBF7#12) ∧
    (∃ t, exec (.calcWord 85#7) live = .next t ∧ t.ports.tcmdOut = 0xB25#12) ∧
    (∃ t, exec (.calcWord 86#7) live = .next t ∧ t.ports.tcmdOut = 0xAEF#12) ∧
    (∃ t, exec (.calcWord 89#7) live = .next t ∧ t.ports.tcmdOut = 0xA3B#12) ∧
    (∃ t, exec (.calcWord 90#7) live = .next t ∧ t.ports.tcmdOut = 0xA00#12) ∧
    (∃ t, exec (.calcWord 99#7) live = .next t ∧ t.ports.tcmdOut = 0xA00#12) :=
  ⟨⟨_, rfl, by decide⟩, ⟨_, rfl, by decide⟩, ⟨_, rfl, by decide⟩, ⟨_, rfl, by decide⟩, ⟨_, rfl, by decide⟩,
   ⟨_, rfl, by decide⟩, ⟨_, rfl, by decide⟩, ⟨_, rfl, by decide⟩⟩

theorem test_witness_CalcNeverProducesReservedWord :
    (∃ t, exec (.calcWord 0#7) live = .next t) ∧ ∃ t, exec (.calcWord 100#7) live = .next t := ⟨⟨_, rfl⟩, ⟨_, rfl⟩⟩

theorem test_witness_PercentAboveHundredRefused :
    100 < (101#7).toNat ∧
    refusalOf (exec (.calcWord 101#7) live) = some (.percentOutOfRange { live with REFUSED := true }) := by
  refine ⟨by decide, rfl⟩

theorem test_witness_ProgramWithReservedSelectRefused :
    (0b001#3 ≠ 0b010#3 ∧ 0b001#3 ≠ 0b011#3 ∧ 0b001#3 ≠ 0b100#3) ∧
    refusalOf (exec (.tprog 0b101#3 0#8) live) = some (.reservedTcmd12 { live with REFUSED := true }) := by
  refine ⟨by decide, rfl⟩

theorem test_witness_MatchAtTickCountPlusOne :
    ∃ t, exec (.tprog (sel .by8) 0#8) live = .next t ∧ (timerAgent t).OCF = true := ⟨_, rfl, rfl⟩

theorem test_witness_LaterCommandReplacesEarlier :
    (∃ t, exec .tstop pulsing = .next t) ∧ ∃ t, exec (.tprog (sel .by64) 37#8) pulsing = .next t :=
  ⟨⟨_, rfl⟩, ⟨_, rfl⟩⟩

theorem test_witness_CompareMatchHandlerTransition :
    live.CST = .armed ∧ pulsing.CST = .firing ∧
    ∃ s : State, s.bench = [] ∧ s.schedule = [.dispatch] ∧ s.GIE = true ∧ s.evt3.extractLsb' 1 2 = 0b01#2 :=
  ⟨rfl, rfl, facing { pulsing with OCF := true, ADIF := true } [.dispatch], by decide⟩

theorem test_witness_ZeroCrossHandlerFourSteps :
    percentToDelay parameters (mapToPercent parameters (sampled 220#10).AS.toNat) = none ∧
    percentToDelay parameters (mapToPercent parameters (sampled 600#10).AS.toNat) = some 4200 ∧
    ∃ s : State, s.bench = [] ∧ s.schedule = [.dispatch] ∧ s.GIE = true ∧ s.evt3.getLsbD 2 = true :=
  ⟨by decide, by decide, facing { pulsing with ZCF := true, OCF := true } [.dispatch], by decide⟩

theorem test_witness_LatchedSampleIsTheRawResult : live.ADBUSY = true := rfl

theorem test_witness_StartIsOneShot : State.reset.HALTED = true ∧ live.HALTED = false := by decide

theorem test_witness_ConversionCompletesOncePerRequest : live.ADBUSY = true ∧ State.reset.ADBUSY = false := by decide

theorem test_witness_TickRepeatsTickThenRun :
    (1#12).toNat = (0#12).toNat + 1 ∧ (4095#12).toNat = (4094#12).toNat + 1 := by decide

theorem test_witness_RunIsTheDispatchLoop :
    State.reset.GIE = false ∧ live.evt3 = 0b000#3 ∧
    ({ live with ADIF := true } : State).GIE = true ∧ ({ live with ADIF := true } : State).evt3 ≠ 0b000#3 := by decide

theorem test_witness_RunLeavesNothingPending :
    ∃ s t : State, exec .run s = .next t ∧ s.GIE = true ∧ s.ZCF = true ∧ s.ADIF = true :=
  ⟨{ live with ZCF := true, ADIF := true }, _, rfl, rfl, rfl, rfl⟩

theorem test_witness_OperationsInDomainComplete :
    (Instr.p2d 100#7).wellFormed = true ∧ (Instr.tprog 0b100#3 0#8).wellFormed = true ∧ Instr.hZc.wellFormed = true := by
  decide

theorem test_witness_ZeroCrossWinsTies :
    ∃ s : State, s.GIE = true ∧ s.ZCF = true ∧ s.OCF = true ∧ s.OCIE = true ∧ s.ADIF = true :=
  ⟨{ pulsing with ZCF := true, OCF := true, ADIF := true }, by decide⟩

/-- Each clause: an owner that does write its cell. -/
theorem test_witness_OnlyOwnersWriteCells :
    (∃ t, exec .start State.reset = .next t ∧ t.HALTED ≠ State.reset.HALTED ∧ t.GIE ≠ State.reset.GIE ∧
      t.ADBUSY ≠ State.reset.ADBUSY) ∧
    (∃ t, exec (.adc 600#10) live = .next t ∧ t.ADL ≠ live.ADL ∧ t.ADH ≠ live.ADH ∧ t.ADIF ≠ live.ADIF) ∧
    (∃ t, exec (.tick 1#12) pulsing = .next t ∧ t.TCNT ≠ pulsing.TCNT) ∧
    (∃ t, exec .hCc { live with ADL := 1#8 } = .next t ∧ t.AS ≠ live.AS) ∧
    (∃ t, exec .hCm live = .next t ∧ t.CST ≠ live.CST ∧ t.TRIG ≠ live.TRIG) ∧
    (∃ t, exec (.tprog 0b010#3 9#8) live = .next t ∧ t.OCR ≠ live.OCR ∧ t.CS ≠ live.CS ∧ t.OCIE ≠ live.OCIE) ∧
    (∃ t, exec .cm live = .next t ∧ t.OCF ≠ live.OCF) ∧
    (∃ t, exec .zc live = .next t ∧ t.ZCF ≠ live.ZCF) ∧
    (∃ t, exec (.map 600#10) live = .next t ∧ t.ports ≠ live.ports) :=
  ⟨⟨_, rfl, by decide⟩, ⟨_, rfl, by decide⟩, ⟨_, rfl, by decide⟩, ⟨_, rfl, by decide⟩, ⟨_, rfl, by decide⟩,
   ⟨_, rfl, by decide⟩, ⟨_, rfl, by decide⟩, ⟨_, rfl, by decide⟩, ⟨_, rfl, by decide⟩⟩

/-- The only command that writes `TDS` to a value it did not have is a program met outside `IDLE`, which no step leaves. -/
theorem test_witness_OnlyOwnersWriteCells_TDS :
    ∃ s t : State, exec (.tprog 0b010#3 9#8) s = .next t ∧ t.TDS ≠ s.TDS :=
  ⟨{ live with TDS := .s3 }, _, rfl, by decide⟩

theorem test_witness_NoSecondPulseBeforeZeroCross :
    ∃ s t : State, step s = .next t ∧ s.CST = .firing ∧ s.ZCF = false ∧
      (s.bench = [] → s.schedule.head? ≠ some (.stim 0x0000#16)) :=
  ⟨facing pulsing [.tick], _, rfl, rfl, rfl, by decide⟩

theorem test_witness_InertBeforeStart :
    ∃ s t : State, s.Inert ∧ s.noDirectCommand = true ∧ s.bench = [] ∧ s.schedule.head? ≠ some (.stim 0x0000#16) ∧
      s.schedule.head? ≠ some (.stim 0x1000#16) ∧ step s = .next t :=
  ⟨facing State.reset [.stim 0x4005#16], _, ⟨rfl, rfl, rfl⟩, rfl, rfl, by decide, by decide, rfl⟩

theorem test_witness_StepKeepsSequencing :
    ∃ s t : State, s.Sequenced ∧ s.TRIG = true ∧ step s = .next t :=
  ⟨facing pulsing [.tick], _, ⟨by decide, by decide, by decide, by decide, by decide⟩, rfl, rfl⟩

theorem test_witness_StepKeepsPulseEnding :
    ∃ s t : State, s.PulseEnds ∧ s.TRIG = true ∧ s.noDirectCommand = true ∧ step s = .next t :=
  ⟨facing pulsing [.tick], _, ⟨by decide, by decide, by decide⟩, rfl, rfl, rfl⟩

/-- Both a next state and a refusal, from two states with different origins of the counter. -/
theorem test_witness_TimerOriginIsUnobservable :
    (∃ s t s' : State, s.SameButTimerOrigin t ∧ s.TCNT ≠ t.TCNT ∧ s.clockRuns = true ∧ step s = .next s') ∧
    (∃ (s t : State) (r : Refusal), s.SameButTimerOrigin t ∧ s.TCNT ≠ t.TCNT ∧ step s = .refused r) :=
  ⟨⟨facing pulsing [.tick], facing { pulsing with TCNT := 0#8, OCR := 0x95#8 } [.tick], _,
    ⟨by decide, by decide⟩, by decide, by decide, rfl⟩,
   ⟨facing live [.stim 0x7000#16], facing { live with TCNT := 9#8 } [.stim 0x7000#16], _,
    ⟨by decide, by decide⟩, by decide, rfl⟩⟩

/-- With power from the linear branch, and with full power, whatever the open delay is. -/
theorem test_witness_HalfCycleFiresOnePulse :
    (∃ s : State, s.GIE = true ∧ s.ZCF = true ∧ s.ADIF = false ∧ mapPort s.AS = 48#7) ∧
    (∃ s : State, s.GIE = true ∧ s.ZCF = true ∧ s.ADIF = false ∧ mapPort s.AS = 100#7) :=
  ⟨⟨{ sampled 600#10 with ZCF := true }, by decide⟩, ⟨{ sampled 941#10 with ZCF := true }, by decide⟩⟩

end Sys2Proof.Tests
end

section
/-! Totality of the operations on their stated domains (00_scope.md R11): one lemma for each operation whose answer depends
on a case, and the loops and handlers through their laws. -/

namespace Sys2Proof.Machine

/-- The legal `cs` fields are the codes of the three prescalers (R82, R85). -/
theorem programSelectLegal_iff (cs : BitVec 3) : programSelectLegal cs = true ↔ ∃ n, cs = sel n := by
  constructor
  · intro h
    simp only [programSelectLegal, Bool.or_eq_true, beq_iff_eq] at h
    rcases h with (h | h) | h
    · exact ⟨.by8, h⟩
    · exact ⟨.by64, h⟩
    · exact ⟨.by256, h⟩
  · rintro ⟨n, rfl⟩
    cases n <;> rfl

/-- `TPROG` with the code of a prescaler writes that program (R141). -/
@[simp] theorem execTprog_sel (n : Prescaler) (cc : Byte) (s : State) :
    execTprog (sel n) cc s = .next (timerProgram n cc s) := by
  simp only [execTprog, programFields, presc_sel]

/-- `TPROG` completes on a legal `cs` (R85, R147). -/
theorem execTprog_next (cs : BitVec 3) (cc : Byte) (s : State) (h : programSelectLegal cs = true) :
    ∃ t, execTprog cs cc s = .next t := by
  obtain ⟨n, rfl⟩ := (programSelectLegal_iff cs).mp h
  exact ⟨_, execTprog_sel n cc s⟩

/-- `P2D` completes on a PowerPercent (R121, R128). -/
theorem execP2d_next (p : Percent) (s : State) (h : percentInDomain p = true) : ∃ t, execP2d p s = .next t :=
  ⟨_, if_pos (of_decide_eq_true h)⟩

/-- `CALC` completes on a PowerPercent (R127, R128). -/
theorem execCalc_next (p : Percent) (s : State) (h : percentInDomain p = true) : ∃ t, execCalc p s = .next t := by
  obtain ⟨c, hc⟩ := calcPort_isSome p (of_decide_eq_true h)
  simp only [execCalc, hc]
  exact ⟨_, rfl⟩

/-- `START` completes, halted or not (R192). -/
theorem execStart_next (s : State) : ∃ t, execStart s = .next t := by
  unfold execStart
  split <;> exact ⟨_, rfl⟩

/-- `ADC` completes, whether a conversion is in progress or not (R194). -/
theorem execAdc_next (v : Sample) (s : State) : ∃ t, execAdc v s = .next t := by
  unfold execAdc
  split <;> exact ⟨_, rfl⟩

/-- Settles O47, by the operation: only `P2D`, `CALC` and `TPROG` can refuse, and their domains exclude it; the handlers
and the loops of `RUN` and `TICK` complete from every state. -/
theorem operationsInDomainComplete : Obligations.OperationsInDomainComplete := by
  intro i s hi
  cases i with
  | map x => exact ⟨_, rfl⟩
  | p2d p => exact execP2d_next p s hi
  | d2p d => exact ⟨_, rfl⟩
  | calcWord p => exact execCalc_next p s hi
  | tprog cs cc => exact execTprog_next cs cc s hi
  | tstop => exact ⟨_, rfl⟩
  | hZc => exact runHandler_next .zeroCross s
  | hCm => exact runHandler_next .timerCompare s
  | hCc => exact runHandler_next .conversionComplete s
  | rst => exact ⟨_, rfl⟩
  | start => exact execStart_next s
  | zc => exact ⟨_, rfl⟩
  | adc v => exact execAdc_next v s
  | tick n => exact tickLoop_next n.toNat s
  | cm => exact ⟨_, rfl⟩
  | run =>
    obtain ⟨t, ht, -⟩ := runAll_next s
    exact ⟨t, ht⟩

end Sys2Proof.Machine
end

section
/-! The prescaler choice of `D2P` and its answer (41_delay_translator.md R124): one lemma for each range of the delay, and
the ports that the choice gives. -/

namespace Sys2Proof.Machine

open Sys2Proof.Config (Params)

/-- Below the first boundary (R124). -/
theorem prescalerFor_eq_by8 {P : Params} {d : Nat} (h : d < P.range8Us) : prescalerFor P d = .by8 := if_pos h

/-- From the first boundary, which itself is in this range, up to the second (R124). -/
theorem prescalerFor_eq_by64 {P : Params} {d : Nat} (hlo : P.range8Us ≤ d) (hhi : d < P.range64Us) :
    prescalerFor P d = .by64 := by
  rw [prescalerFor, if_neg (Nat.not_lt.mpr hlo), if_pos hhi]

/-- From both boundaries upward, without an upper end (R124, R126). -/
theorem prescalerFor_eq_by256 {P : Params} {d : Nat} (h8 : P.range8Us ≤ d) (h64 : P.range64Us ≤ d) :
    prescalerFor P d = .by256 := by
  rw [prescalerFor, if_neg (Nat.not_lt.mpr h8), if_neg (Nat.not_lt.mpr h64)]

/-- `D2P` puts out the code of the chosen prescaler and the count of that same prescaler (R124). -/
theorem exec_d2p_of_prescalerFor {d : Delay} {n : Prescaler} (h : prescalerFor parameters d.toNat = n) (s : State) :
    exec (.d2p d) s = .next { s with ports := { s.ports with
      csOut := sel n, ccOut := BitVec.ofNat 8 (countFor parameters d.toNat n) } } := by
  subst h
  rfl

/-- Settles O22, by the range of the delay: the boundaries of the parameter record are 425 and 3400. -/
theorem delayToProgramStrictBoundaries : Obligations.DelayToProgramStrictBoundaries := by
  intro d s
  refine ⟨fun h => ?below8, fun hlo hhi => ?below64, fun h => ?from64⟩
  case below8 => exact exec_d2p_of_prescalerFor (prescalerFor_eq_by8 h) s
  case below64 => exact exec_d2p_of_prescalerFor (prescalerFor_eq_by64 hlo hhi) s
  case from64 =>
    have h8 : 425 ≤ d.toNat := by omega
    exact exec_d2p_of_prescalerFor (prescalerFor_eq_by256 h8 h) s

end Sys2Proof.Machine
end

section
/-! `TPROG`, write by write (42_timer_driver.md R141): the compare target, and the operation as the program it writes. -/

namespace Sys2Proof.Machine

/-- S4 reads the counter where it stands and adds the count to it (R141, R144). -/
theorem tprogS4_of_TCNT {c : Byte} {s : State} (cc : Byte) (h : s.TCNT = c) :
    tprogS4 cc s = { s with OCR := c + cc, TDS := .s4 } := by
  subst h
  rfl

/-- A `tprog` operation with the code of a prescaler leaves that program's state (R141, R147). -/
theorem exec_tprog_sel (n : Prescaler) (cc : Byte) (s : State) :
    exec (.tprog (sel n) cc) s = .next (timerProgram n cc s) := execTprog_sel n cc s

/-- Settles O29, by the write: each stage is its own record update, S4's counter is the one before the command since S1 to
S3 leave it alone, and the last two parts are `TPROG` with its lock written out and with its six writes taken together. -/
theorem programWritesInNormativeOrder : Obligations.ProgramWritesInNormativeOrder := by
  intro n cc s a1 a2 a3 a4 a5 a6
  have counterKept : a3.TCNT = s.TCNT := rfl
  refine ⟨rfl, rfl, rfl, ?compareTarget, rfl, rfl, ?lockLeft, ?writesTogether⟩
  case compareTarget => exact tprogS4_of_TCNT cc counterKept
  case lockLeft => rw [exec_tprog_sel, timerProgram, tprogLeave]
  case writesTogether => rw [exec_tprog_sel, timerProgram_eq]

end Sys2Proof.Machine
end

section
/-! An enabled dispatch as a step of the assembled block, and `H_CM`, which it selects by `e[2:1]` (43_firing_fsm.md R161;
60_exceptions.md R215, R217, R218). -/

namespace Sys2Proof.Machine

/-- The priority decode gives the compare match exactly where `e[2:1] = 0b01`: bit 2 clear and bit 1 set, whatever bit 0
is (R86). -/
theorem selectEvent_eq_timerCompare (e : Evt3) : selectEvent e = some .timerCompare ↔ e.extractLsb' 1 2 = 0b01#2 := by
  revert e
  decide

/-- Serving an event runs the operation of its handler between trap entry and trap return (R199, R212). -/
theorem serveEvent_eq_exec (ev : Event) (s : State) :
    serveEvent ev s = andThen (exec (handlerOf ev) (trapEntry ev s)) fun t => .next (trapReturn t) := by
  cases ev <;> rfl

/-- A step at a scheduled dispatch, with the handlers enabled, serves the event that the vector selects (R199, R215). -/
theorem step_dispatch_serves {s : State} {rest : List Entry} {ev : Event} (hb : s.bench = [])
    (hs : s.schedule = .dispatch :: rest) (hg : s.GIE = true) (hev : selectEvent s.evt3 = some ev) :
    step s = serveEvent ev { s with schedule := rest } := by
  rw [step_entry s .dispatch rest hb hs]
  exact dispatchOne_serves { s with schedule := rest } ev hg hev

/-- Settles O35, by the control state: the two branches are the body's laws, and the selection is the priority decode with
trap entry and trap return written out. -/
theorem compareMatchHandlerTransition : Obligations.CompareMatchHandlerTransition := by
  intro s
  refine ⟨fun h => ?fromArmed, fun h => ?fromFiring, fun rest hb hs hg he => ?selected⟩
  case fromArmed => exact execHCm_armed s h
  case fromFiring => exact execHCm_firing s h
  case selected =>
    have hev : selectEvent s.evt3 = some .timerCompare := (selectEvent_eq_timerCompare s.evt3).mpr he
    rw [step_dispatch_serves hb hs hg hev, serveEvent_eq_exec, trapEntry_timerCompare]
    rfl

end Sys2Proof.Machine
end

section
/-! The converter's result in its two cells, and the latch that puts it together again (20_memory.md R62;
45_analog_latch.md R182). -/

namespace Sys2Proof.Machine

/-- The two parts of a sample, bits 9:8 before bits 7:0, are the whole sample (R62). -/
theorem sampleHigh_append_sampleLow (v : Sample) : sampleHigh v ++ sampleLow v = v :=
  calc sampleHigh v ++ sampleLow v
    _ = v.extractLsb' 0 (2 + 8) := BitVec.extractLsb'_append_extractLsb'_eq_extractLsb' rfl
    _ = v := BitVec.extractLsb'_eq_self

/-- A requested conversion completes (R194). -/
theorem execAdc_busy {s : State} (v : Sample) (h : s.ADBUSY = true) :
    execAdc v s = .next (completeConversion v s) := if_pos h

/-- `H_CC` after a completion latches that conversion's result (R181, R182). -/
theorem execHCc_completeConversion (v : Sample) (s : State) :
    execHCc (completeConversion v s) = .next { completeConversion v s with AS := v } := by
  have latched : (completeConversion v s).ADH ++ (completeConversion v s).ADL = v :=
    sampleHigh_append_sampleLow v
  rw [execHCc_eq, latched]

/-- Settles O38, by the two operations: a completion splits its result over `ADH` and `ADL`, and the latch puts exactly
these two together. -/
theorem latchedSampleIsTheRawResult : Obligations.LatchedSampleIsTheRawResult := by
  intro v s hbusy
  exact ⟨completeConversion v s, { completeConversion v s with AS := v }, execAdc_busy v hbusy,
    execHCc_completeConversion v s, rfl⟩

end Sys2Proof.Machine
end

section
/-! The round trip of words (30_encoding.md R84 to R92): what every operation's own word decodes to, and that the word of a
port or of a stimulus is determined by the operation it selects. -/

namespace Sys2Proof

/-- A PROGRAM word decodes to its fields, whether its clock select is legal or reserved (R85, log 14). -/
@[simp] theorem decodeTcmd12_programWord (cs : BitVec 3) (cc : Byte) :
    decodeTcmd12 (programWord cs cc) = .ok (.tprog cs cc) := by
  obtain ⟨hk, hcs, hcc⟩ := programWord_fields cs cc
  rw [decodeTcmd12, if_pos hk, hcs, hcc]

/-- The word of an operation selects it; no operand's domain is needed for that. -/
theorem decode_encode (i : Instr) : decode (encode i) = .ok i := by
  cases i with
  | tprog cs cc => exact decodeTcmd12_programWord cs cc
  | adc v => exact Laws.RoundTrip.adc v rfl
  | tick n => exact Laws.RoundTrip.tick n rfl
  | _ => rfl

/-- A command word is the word of the operation that it selects (R85). -/
theorem encode_of_decodeTcmd12 {w : Tcmd12} {i : Instr} (h : decodeTcmd12 w = .ok i) :
    encode i = .port (.tcmd12 w) := by
  unfold decodeTcmd12 at h
  split at h
  next hk =>
    cases h
    rw [encode, programWord_split w hk]
  next =>
    split at h
    next h0 =>
      cases h
      rw [h0, encode]
    next => cases h

/-- A port's word is the word of the operation that it selects (R84, R85). -/
theorem encode_of_decodePort {w : PortWord} {i : Instr} (h : decodePort w = .ok i) : encode i = .port w := by
  cases w with
  | tcmd12 w => exact encode_of_decodeTcmd12 h
  | _ => cases h; rfl

/-- A stimulus word with these fields is the word made of them (R87). -/
theorem stimWord_of_fields {w : Stim16} {op : BitVec 4} {arg : BitVec 12}
    (hop : (w.extractLsb' 12 4).toNat = op.toNat) (harg : w.extractLsb' 0 12 = arg) : stimWord op arg = w := by
  rw [← BitVec.eq_of_toNat_eq hop, ← harg, stimWord_split]

/-- A stimulus word without an argument is the word of the operation that it selects (R87, R88). -/
theorem encode_of_bareStimulus {w : Stim16} {op : BitVec 4} {i j : Instr} (hj : encode j = .stim16 (stimWord op 0#12))
    (hop : (w.extractLsb' 12 4).toNat = op.toNat) (h : bareStimulus (w.extractLsb' 0 12) j = .ok i) :
    encode i = .stim16 w := by
  obtain ⟨harg, rfl⟩ := (bareStimulus_eq_ok _ _ _).mp h
  rw [hj, stimWord_of_fields hop harg]

/-- A stimulus word is the word of the operation that it selects (R87, R88). -/
theorem encode_of_decodeStim16 {w : Stim16} {i : Instr} (h : decodeStim16 w = .ok i) : encode i = .stim16 w := by
  simp only [decodeStim16] at h
  split at h
  next hop => exact encode_of_bareStimulus (op := 0#4) rfl hop h
  next hop => exact encode_of_bareStimulus (op := 1#4) rfl hop h
  next hop => exact encode_of_bareStimulus (op := 2#4) rfl hop h
  next hop =>
    split at h
    next hhi =>
      cases h
      rw [encode, adcArgument_split _ hhi, stimWord_of_fields hop rfl]
    next => cases h
  next hop =>
    cases h
    rw [encode, stimWord_of_fields hop rfl]
  next hop => exact encode_of_bareStimulus (op := 5#4) rfl hop h
  next hop => exact encode_of_bareStimulus (op := 6#4) rfl hop h
  next => cases h

/-- A command word selects an operation exactly where it is that operation's word. -/
theorem decodeTcmd12_eq_ok_iff (w : Tcmd12) (i : Instr) :
    decodeTcmd12 w = .ok i ↔ encode i = .port (.tcmd12 w) := by
  refine ⟨encode_of_decodeTcmd12, fun h => ?_⟩
  have own := decode_encode i
  rwa [h] at own

/-- A stimulus word selects an operation exactly where it is that operation's word. -/
theorem decodeStim16_eq_ok_iff (w : Stim16) (i : Instr) : decodeStim16 w = .ok i ↔ encode i = .stim16 w := by
  refine ⟨encode_of_decodeStim16, fun h => ?_⟩
  have own := decode_encode i
  rwa [h] at own

/-- Settles O1: every operation's own word selects it, in particular where its operands lie in their domain. -/
theorem encodedOperationDecodesToItself : Obligations.EncodedOperationDecodesToItself :=
  fun i _ => decode_encode i

/-- Settles O2, by the format: port words and stimulus words. -/
theorem decodedWordEncodesBack : Obligations.DecodedWordEncodesBack :=
  ⟨fun _ _ h => encode_of_decodePort h, fun _ _ h => encode_of_decodeStim16 h⟩

end Sys2Proof
end

section
/-! The rows of the stimulus table and of the command table, each as the words it takes (30_encoding.md R85 to R89). -/

namespace Sys2Proof

/-- A mask of all sixteen bits keeps the word. -/
@[simp] theorem and_allBits (w : Stim16) : w &&& 0xFFFF#16 = w := BitVec.and_allOnes

/-- The argument of `ADC` is its result, the two high bits 0 (R87). -/
theorem adcArgument_toNat (v : Sample) : (0#2 ++ v : BitVec 12).toNat = v.toNat := by
  have h : (0#2 ++ v : BitVec 12).toNat = (0#2).toNat <<< 10 ||| v.toNat := BitVec.toNat_append 0#2 v
  simpa using h

/-- The row of `ADC`: the six high bits fixed, the ten low ones its result (R87). -/
theorem stimWord_adc_eq_iff (w : Stim16) (v : Sample) :
    stimWord 0x3#4 (0#2 ++ v : BitVec 12) = w ↔ w &&& 0xFC00#16 = 0x3000#16 ∧ w.extractLsb' 0 10 = v := by
  have hmask : (w &&& 0xFC00#16).toNat = w.toNat / 1024 * 1024 := mask_toNat w 0xFC00#16 10 rfl
  have hlow : (w.extractLsb' 0 10).toNat = w.toNat % 1024 := by rw [extract_toNat]; omega
  have hword : (stimWord 0x3#4 (0#2 ++ v : BitVec 12)).toNat = 0x3000 + v.toNat := by
    rw [stimWord_toNat, adcArgument_toNat]; rfl
  have hv := v.isLt
  simp only [← BitVec.toNat_inj, hmask, hlow, hword, BitVec.toNat_ofNat]
  omega

/-- The row of `TICK`: the four high bits fixed, the twelve low ones its number of rounds (R87). -/
theorem stimWord_tick_eq_iff (w : Stim16) (n : BitVec 12) :
    stimWord 0x4#4 n = w ↔ w &&& 0xF000#16 = 0x4000#16 ∧ w.extractLsb' 0 12 = n := by
  have hmask : (w &&& 0xF000#16).toNat = w.toNat / 4096 * 4096 := mask_toNat w 0xF000#16 12 rfl
  have hlow : (w.extractLsb' 0 12).toNat = w.toNat % 4096 := by rw [extract_toNat]; omega
  have hn := n.isLt
  simp only [← BitVec.toNat_inj, hmask, hlow, stimWord_toNat, BitVec.toNat_ofNat]
  omega

/-- The row of a stimulus without an argument is one word (R87, R88). -/
theorem decodeStim16_fixed_iff {i : Instr} {c : Stim16} (h : encode i = .stim16 c) (w : Stim16) :
    decodeStim16 w = .ok i ↔ w = c := by
  rw [decodeStim16_eq_ok_iff, h, CodeWord.stim16.injEq, eq_comm]

/-- The row of `ADC` (R87). -/
theorem decodeStim16_adc_iff (w : Stim16) (v : Sample) :
    decodeStim16 w = .ok (.adc v) ↔ w &&& 0xFC00#16 = 0x3000#16 ∧ w.extractLsb' 0 10 = v := by
  rw [decodeStim16_eq_ok_iff, encode, CodeWord.stim16.injEq, stimWord_adc_eq_iff]

/-- The row of `TICK` (R87). -/
theorem decodeStim16_tick_iff (w : Stim16) (n : BitVec 12) :
    decodeStim16 w = .ok (.tick n) ↔ w &&& 0xF000#16 = 0x4000#16 ∧ w.extractLsb' 0 12 = n := by
  rw [decodeStim16_eq_ok_iff, encode, CodeWord.stim16.injEq, stimWord_tick_eq_iff]

/-- The reset's one word (R87). -/
theorem decodeStim16_rst_iff (w : Stim16) : decodeStim16 w = .ok .rst ↔ w = 0x0000#16 := decodeStim16_fixed_iff rfl w

/-- The start's one word (R87). -/
theorem decodeStim16_start_iff (w : Stim16) : decodeStim16 w = .ok .start ↔ w = 0x1000#16 :=
  decodeStim16_fixed_iff rfl w

/-- A stimulus without an argument is refused for one reason only (R88). -/
theorem bareStimulus_error {arg : BitVec 12} {i : Instr} {e : DecodeError} (h : bareStimulus arg i = .error e) :
    e = .invalidStimulus := by
  unfold bareStimulus at h
  split at h <;> cases h
  rfl

/-- The only reason for which a stimulus word is refused (R88). -/
theorem decodeStim16_error {w : Stim16} {e : DecodeError} (h : decodeStim16 w = .error e) : e = .invalidStimulus := by
  simp only [decodeStim16] at h
  split at h
  next => exact bareStimulus_error h
  next => exact bareStimulus_error h
  next => exact bareStimulus_error h
  next =>
    split at h <;> cases h
    rfl
  next => cases h
  next => exact bareStimulus_error h
  next => exact bareStimulus_error h
  next =>
    cases h
    rfl

/-- A stimulus word is invalid exactly where it selects no operation (R88). -/
theorem decodeStim16_invalid_iff (w : Stim16) :
    decodeStim16 w = .error .invalidStimulus ↔ ¬ ∃ i, decodeStim16 w = .ok i := by
  cases h : decodeStim16 w with
  | ok i => simp
  | error e => simp [decodeStim16_error h]

/-- The words that select some stimulus are the seven rows (R87). -/
theorem decodeStim16_isOk_iff (w : Stim16) :
    (∃ i, decodeStim16 w = .ok i) ↔
      w = 0x0000#16 ∨ w = 0x1000#16 ∨ w = 0x2000#16 ∨ w &&& 0xFC00#16 = 0x3000#16 ∨ w &&& 0xF000#16 = 0x4000#16 ∨
        w = 0x5000#16 ∨ w = 0x6000#16 := by
  constructor
  · rintro ⟨i, h⟩
    rcases Machine.decodeStim16_is_stimulus w i h with rfl | rfl | rfl | ⟨v, rfl⟩ | ⟨n, rfl⟩ | rfl | rfl
    · exact .inl ((decodeStim16_rst_iff w).mp h)
    · exact .inr (.inl ((decodeStim16_start_iff w).mp h))
    · exact .inr (.inr (.inl ((decodeStim16_fixed_iff rfl w).mp h)))
    · exact .inr (.inr (.inr (.inl ((decodeStim16_adc_iff w v).mp h).1)))
    · exact .inr (.inr (.inr (.inr (.inl ((decodeStim16_tick_iff w n).mp h).1))))
    · exact .inr (.inr (.inr (.inr (.inr (.inl ((decodeStim16_fixed_iff rfl w).mp h))))))
    · exact .inr (.inr (.inr (.inr (.inr (.inr ((decodeStim16_fixed_iff rfl w).mp h))))))
  · rintro (rfl | rfl | rfl | h | h | rfl | rfl)
    · exact ⟨.rst, rfl⟩
    · exact ⟨.start, rfl⟩
    · exact ⟨.zc, rfl⟩
    · exact ⟨.adc _, (decodeStim16_adc_iff w _).mpr ⟨h, rfl⟩⟩
    · exact ⟨.tick _, (decodeStim16_tick_iff w _).mpr ⟨h, rfl⟩⟩
    · exact ⟨.cm, rfl⟩
    · exact ⟨.run, rfl⟩

/-- Settles O3, by the row. -/
theorem stimulusRowsSelectByMaskAndMatch : Obligations.StimulusRowsSelectByMaskAndMatch := by
  intro w
  simp only [and_allBits]
  refine ⟨decodeStim16_rst_iff w, decodeStim16_start_iff w, decodeStim16_fixed_iff rfl w, decodeStim16_adc_iff w,
    decodeStim16_tick_iff w, decodeStim16_fixed_iff rfl w, decodeStim16_fixed_iff rfl w, ?invalid⟩
  case invalid => rw [decodeStim16_invalid_iff, decodeStim16_isOk_iff]

/-- The row of `TPROG`, by the word's number (R85). -/
theorem decodeTcmd12_tprog_iff (w : Tcmd12) (cs : BitVec 3) (cc : Byte) :
    decodeTcmd12 w = .ok (.tprog cs cc) ↔ w.toNat = 0x800 + cs.toNat * 256 + cc.toNat := by
  rw [decodeTcmd12_eq_ok_iff, encode, CodeWord.port.injEq, PortWord.tcmd12.injEq, ← BitVec.toNat_inj,
    programWord_toNat]
  omega

/-- The row of `TSTOP` (R85). -/
theorem decodeTcmd12_tstop_iff (w : Tcmd12) : decodeTcmd12 w = .ok .tstop ↔ w = 0x000#12 := by
  rw [decodeTcmd12_eq_ok_iff, encode, CodeWord.port.injEq, PortWord.tcmd12.injEq, eq_comm]

/-- A command word selects a command of the Timer Driver and nothing else (R85). -/
theorem decodeTcmd12_is_command {w : Tcmd12} {i : Instr} (h : decodeTcmd12 w = .ok i) :
    i = .tstop ∨ ∃ cs cc, i = .tprog cs cc := by
  unfold decodeTcmd12 at h
  split at h
  · cases h
    exact .inr ⟨_, _, rfl⟩
  · split at h <;> cases h
    exact .inl rfl

/-- The legal clock selects, by number (R82, R85). -/
theorem programSelectLegal_iff_range (cs : BitVec 3) :
    programSelectLegal cs = true ↔ 2 ≤ cs.toNat ∧ cs.toNat ≤ 4 := by
  revert cs
  decide

/-- Settles O4, by the command: the words of `TSTOP` and of the legal programs by their numbers. -/
theorem commandWordsLegalRanges : Obligations.CommandWordsLegalRanges := by
  intro w
  refine ⟨⟨?legalInRange, ?rangeLegal⟩, decodeTcmd12_tprog_iff w⟩
  case legalInRange =>
    rintro ⟨i, hi, hwf⟩
    rcases decodeTcmd12_is_command hi with rfl | ⟨cs, cc, rfl⟩
    · exact .inl ((decodeTcmd12_tstop_iff w).mp hi)
    · have hw := (decodeTcmd12_tprog_iff w cs cc).mp hi
      have hcs := (programSelectLegal_iff_range cs).mp hwf
      have hcc := cc.isLt
      omega
  case rangeLegal =>
    rintro (rfl | hrange)
    · exact ⟨.tstop, rfl, rfl⟩
    · have hcs : (w.extractLsb' 8 3).toNat = w.toNat / 256 % 8 := extract_toNat w 8 3
      have hcc : (w.extractLsb' 0 8).toNat = w.toNat % 256 := by rw [extract_toNat]; omega
      refine ⟨.tprog (w.extractLsb' 8 3) (w.extractLsb' 0 8), ?_, ?_⟩
      · rw [decodeTcmd12_tprog_iff, hcs, hcc]; omega
      · exact (programSelectLegal_iff_range _).mpr (by omega)

end Sys2Proof
end

section
/-! The event vector on the flags, the words written out in the tables, and the pseudo-operations (30_encoding.md R86,
R94). -/

namespace Sys2Proof.Machine

/-- The event vector's bits are the flags, the compare match only where its interrupt is enabled (R86). -/
theorem evt3_bits (s : State) :
    s.evt3.getLsbD 2 = s.ZCF ∧ s.evt3.getLsbD 1 = (s.OCF && s.OCIE) ∧ s.evt3.getLsbD 0 = s.ADIF := by
  unfold State.evt3
  cases s.ZCF <;> cases s.OCF && s.OCIE <;> cases s.ADIF <;> decide

/-- A vector selects the handler of the event that the priority decode gives (R86, R212). -/
theorem decodeEvt3_handlerOf_iff (e : Evt3) (ev : Event) :
    decodeEvt3 e = .ok (handlerOf ev) ↔ selectEvent e = some ev := by
  unfold decodeEvt3
  cases selectEvent e with
  | none => simp
  | some ev' => cases ev' <;> cases ev <;> simp [handlerOf]

/-- A vector selects nothing where the priority decode gives no event (R86). -/
theorem decodeEvt3_nothing_iff (e : Evt3) : decodeEvt3 e = .error .nothingPending ↔ selectEvent e = none := by
  unfold decodeEvt3
  cases selectEvent e <;> simp

/-- The priority decode by mask and match, on all eight vectors (R86, R215). -/
theorem selectEvent_rows (e : Evt3) :
    (selectEvent e = some .zeroCross ↔ e &&& 0b100#3 = 0b100#3) ∧
    (selectEvent e = some .timerCompare ↔ e &&& 0b110#3 = 0b010#3) ∧
    (selectEvent e = some .conversionComplete ↔ e &&& 0b111#3 = 0b001#3) ∧
    (selectEvent e = none ↔ e = 0b000#3) := by
  revert e
  decide

/-- The rows of EVT3, by mask and match (R86, R215). -/
theorem decodeEvt3_rows (e : Evt3) :
    (decodeEvt3 e = .ok .hZc ↔ e &&& 0b100#3 = 0b100#3) ∧
    (decodeEvt3 e = .ok .hCm ↔ e &&& 0b110#3 = 0b010#3) ∧
    (decodeEvt3 e = .ok .hCc ↔ e &&& 0b111#3 = 0b001#3) ∧
    (decodeEvt3 e = .error .nothingPending ↔ e = 0b000#3) := by
  obtain ⟨hz, hm, hc, hn⟩ := selectEvent_rows e
  exact ⟨(decodeEvt3_handlerOf_iff e .zeroCross).trans hz, (decodeEvt3_handlerOf_iff e .timerCompare).trans hm,
    (decodeEvt3_handlerOf_iff e .conversionComplete).trans hc, (decodeEvt3_nothing_iff e).trans hn⟩

/-- Settles O5: the bits on every state, the rows through the priority decode. -/
theorem eventVectorSelectsByPriority : Obligations.EventVectorSelectsByPriority := ⟨evt3_bits, decodeEvt3_rows⟩

/-- Settles O6: each word is run through its format's decoder. -/
theorem writtenOutWordsDecode : Obligations.WrittenOutWordsDecode :=
  ⟨rfl, rfl, rfl, rfl, rfl, rfl, rfl, rfl, rfl, rfl⟩

end Sys2Proof.Machine

namespace Sys2Proof

/-- A stimulus word is the sum of its operation's word and its argument (R87). -/
theorem stimWord_eq_add (op : BitVec 4) (arg : BitVec 12) :
    stimWord op arg = BitVec.ofNat 16 (4096 * op.toNat) + arg.zeroExtend 16 := by
  apply BitVec.eq_of_toNat_eq
  have hop := op.isLt
  have harg := arg.isLt
  rw [stimWord_toNat]
  simp only [BitVec.toNat_add, BitVec.toNat_ofNat, BitVec.zeroExtend, BitVec.toNat_setWidth]
  omega

/-- The word of `ADC` is its operation's word plus the result (R87). -/
theorem encode_adc (v : Sample) : encode (.adc v) = .stim16 (0x3000#16 + v.zeroExtend 16) := by
  have harg : (0#2 ++ v : BitVec 12).zeroExtend 16 = v.zeroExtend 16 := by
    apply BitVec.eq_of_toNat_eq
    simp only [BitVec.zeroExtend, BitVec.toNat_setWidth, adcArgument_toNat]
  rw [encode, stimWord_eq_add, harg]
  rfl

/-- The word of `TICK` is its operation's word plus the number of rounds (R87). -/
theorem encode_tick (n : BitVec 12) : encode (.tick n) = .stim16 (0x4000#16 + n.zeroExtend 16) := by
  rw [encode, stimWord_eq_add]
  rfl

/-- Settles O7, by the pseudo-operation: only `ADCR` and `WAIT` carry an argument. -/
theorem pseudoOperationsExpand : Obligations.PseudoOperationsExpand := by
  refine ⟨rfl, fun v => ?adcr, rfl, rfl, fun n => ?wait, rfl⟩
  case adcr => rw [expandPseudo, List.map_cons, encode_adc]; rfl
  case wait => rw [expandPseudo, List.map_cons, encode_tick]; rfl

end Sys2Proof
end

section
/-! One step, by what is presented: a stimulus, a port's word, the dispatcher's turn or a tick (46_environment_ops.md R190,
R195, R199, R200). -/

namespace Sys2Proof.Machine

/-- What a decoder accepted runs as its operation. -/
theorem runDecoded_ok {r : Except DecodeError Instr} {i : Instr} (h : r = .ok i) (s : State) :
    runDecoded r s = exec i s := by
  subst h
  rfl

/-- A step at a stimulus word that selects an operation is that operation. -/
theorem step_stimulus {s : State} {w : Stim16} {rest : List Entry} {i : Instr} (hb : s.bench = [])
    (hs : s.schedule = .stim w :: rest) (hw : decodeStim16 w = .ok i) : step s = exec i { s with schedule := rest } := by
  rw [step_entry s _ rest hb hs, runEntry, runDecoded_ok hw]

/-- A step at a port's word that selects an operation is that operation. -/
theorem step_port {s : State} {w : PortWord} {rest : List PortWord} {i : Instr} (hb : s.bench = w :: rest)
    (hw : decodePort w = .ok i) : step s = exec i { s with bench := rest } := by
  rw [step_bench s w rest hb, runDecoded_ok hw]

/-- Settles O8, by the list that the word stands on. -/
theorem stepRunsPresentedOperation : Obligations.StepRunsPresentedOperation :=
  fun _ _ => ⟨fun _ _ hb hs hw => step_stimulus hb hs hw, fun _ _ hb hw => step_port hb hw⟩

/-- At the dispatcher's turn, with handlers unmasked, a step runs the handler of the event that the vector selects, between
trap entry and trap return (R199, R215). -/
theorem step_dispatcher_serves {s : State} {rest : List Entry} {ev : Event} (hd : s.DispatcherNext rest)
    (hg : s.GIE = true) (hev : s.pendingEvent = some ev) :
    step s = andThen (exec (handlerOf ev) (trapEntry ev { s with schedule := rest })) fun t => .next (trapReturn t) := by
  rw [step_dispatcher s rest hd, dispatchOne_serves { s with schedule := rest } ev hg hev, serveEvent_eq_exec]

/-- A pending edge is what the priority decode gives (R215). -/
theorem pendingEvent_of_edge {s : State} (hz : s.ZCF = true) : s.pendingEvent = some .zeroCross := by
  rw [pendingEvent_eq, if_pos hz]

/-- A dispatch is enabled only with handlers unmasked (R199). -/
theorem unmasked_of_canDispatch {s : State} (h : s.canDispatch = true) : s.GIE = true := by
  rw [State.canDispatch, Bool.and_eq_true] at h
  exact h.1

/-- A pending edge with handlers unmasked enables a dispatch (R199). -/
theorem canDispatch_of_edge {s : State} (hg : s.GIE = true) (hz : s.ZCF = true) : s.canDispatch = true := by
  rw [State.canDispatch, hg, pendingEvent_of_edge hz]
  rfl

/-- Settles O9, by the event of highest priority that is pending. -/
theorem stepDispatchesByPriority : Obligations.StepDispatchesByPriority := by
  intro s rest hd hg
  refine ⟨fun hz => ?zeroCross, fun hz ho hi => ?timerCompare, fun hz hm ha => ?conversionComplete⟩
  case zeroCross => exact step_dispatcher_serves hd hg (pendingEvent_of_edge hz)
  case timerCompare =>
    have hev : s.pendingEvent = some .timerCompare := by simp [pendingEvent_eq, hz, ho, hi]
    exact step_dispatcher_serves hd hg hev
  case conversionComplete =>
    have hev : s.pendingEvent = some .conversionComplete := by simp only [pendingEvent_eq, hz, hm, ha]; rfl
    exact step_dispatcher_serves hd hg hev

/-- What a vector decodes to is the handler of the event that the priority decode gives (R86, R212). -/
theorem decodeEvt3_eq_ok {e : Evt3} {i : Instr} (h : decodeEvt3 e = .ok i) :
    ∃ ev, i = handlerOf ev ∧ selectEvent e = some ev := by
  unfold decodeEvt3 at h
  cases hev : selectEvent e with
  | none => rw [hev] at h; cases h
  | some ev => rw [hev] at h; cases h; exact ⟨ev, rfl, rfl⟩

/-- Settles O10: the decoder's handler is the one of the event that the step serves. -/
theorem stepDispatchRunsDecodedHandler : Obligations.StepDispatchRunsDecodedHandler := by
  intro s rest i hd hg hi
  obtain ⟨ev, rfl, hev⟩ := decodeEvt3_eq_ok hi
  exact ⟨ev, rfl, hev, step_dispatcher_serves hd hg hev⟩

/-- Settles O11, by the clock. -/
theorem stepTicksRunningTimer : Obligations.StepTicksRunningTimer := by
  intro s rest hb hs
  rw [step_entry s .tick rest hb hs, runEntry]
  refine ⟨fun hrun => ?running, fun hstop => ?stopped⟩
  case running =>
    rw [timerAgent_running { s with schedule := rest } hrun]
    rfl
  case stopped => rw [timerAgent_stopped { s with schedule := rest } hstop]

/-- The priority decode gives no event exactly on the empty vector (R86). -/
theorem pendingEvent_eq_none_iff (s : State) : s.pendingEvent = none ↔ s.evt3 = 0b000#3 :=
  (selectEvent_rows s.evt3).2.2.2

/-- No dispatch is enabled exactly where handlers are masked or the vector is empty (R199). -/
theorem canDispatch_eq_false_iff (s : State) : s.canDispatch = false ↔ s.GIE = false ∨ s.evt3 = 0b000#3 := by
  rw [State.canDispatch, Bool.and_eq_false_iff, ← pendingEvent_eq_none_iff, Option.isSome_eq_false_iff,
    Option.isNone_iff_eq_none]

/-- Settles O12: a dispatch that is not enabled has no effect. -/
theorem stepIdlesWhenNothingIsEnabled : Obligations.StepIdlesWhenNothingIsEnabled := by
  intro s rest hd hidle
  rw [step_dispatcher s rest hd]
  exact dispatchOne_disabled { s with schedule := rest } ((canDispatch_eq_false_iff s).mpr hidle)

/-- A reserved command word refuses at the Timer Driver's port: with `k = 0` by the decoder, with `k = 1` by `TPROG`, whose
clock select is then none of the three legal ones (R85, R147). -/
theorem execCommand_reserved {w : Tcmd12} (h0 : w ≠ 0x000#12) (hr : w.toNat < 0xA00 ∨ 0xCFF < w.toNat) (s : State) :
    execCommand w s = refuse .reservedTcmd12 s := by
  rw [execCommand, if_neg h0]
  split
  next hk =>
    have hw := (decodeTcmd12_tprog_iff w _ _).mp (if_pos hk)
    have hcc := (w.extractLsb' 0 8).isLt
    have hillegal : presc (w.extractLsb' 8 3) = none := by
      rw [Option.eq_none_iff_forall_ne_some]
      intro n hn
      have hcs := (programSelectLegal_iff_range _).mp ((programSelectLegal_iff _).mpr ⟨n, (presc_eq_some _ n).mp hn⟩)
      omega
    rw [programFields, hillegal]
  next => rfl

/-- Settles O16, by the port that the word is handed to. -/
theorem stepRefusesReservedWords : Obligations.StepRefusesReservedWords := by
  intro s
  refine ⟨fun w rest hb h0 hr => ?command, fun w rest hb hs hw => ?stimulus⟩
  case command =>
    rw [step_bench s _ rest hb, runDecoded_tcmd12, execCommand_reserved h0 hr]
    rfl
  case stimulus =>
    rw [step_entry s _ rest hb hs, runEntry, hw]
    rfl

end Sys2Proof.Machine
end

section
/-! A placed table word runs next (30_encoding.md, operation map; logs 3 and 4). -/

namespace Sys2Proof.Machine

/-- What a table word decodes to is what its code word decodes to. -/
theorem decodeTableWord_eq_some {nbits w : Nat} {i : Instr} (h : decodeTableWord nbits w = some i) :
    ∃ cw, tableWord nbits w = some cw ∧ decode cw = .ok i := by
  unfold decodeTableWord at h
  split at h
  next cw hcw =>
    split at h
    next j hj =>
      cases h
      exact ⟨cw, hcw, hj⟩
    next => cases h
  next => cases h

/-- A 16-bit table word is never an event vector (log 4). -/
theorem tableWord16_ne_evt3 (w : Nat) (e : Evt3) : tableWord16 w ≠ .evt3 e := by
  unfold tableWord16
  split_ifs <;> simp

/-- A table word that stands for an event vector is that vector's number (log 4). -/
theorem tableWord_eq_evt3 {nbits w : Nat} {e : Evt3} (h : tableWord nbits w = some (.evt3 e)) :
    e = BitVec.ofNat 3 w := by
  unfold tableWord at h
  split at h
  next => cases h
  next =>
    split at h
    next => cases h; rfl
    next => cases h
    next =>
      split_ifs at h <;> cases h
      rfl
    next => cases h
    next => cases h
    next => cases h
    next => exact absurd (Option.some.inj h) (tableWord16_ne_evt3 w e)
    next => cases h

/-- A handler's own word is an event vector (R92). -/
theorem encode_handlerOf (ev : Event) : ∃ e, encode (handlerOf ev) = .evt3 e := by
  cases ev <;> exact ⟨_, rfl⟩

/-- A step at a placed port word is its operation on the state itself. -/
theorem step_placeWord_port {p : PortWord} {i : Instr} (h : decodePort p = .ok i) (s : State) :
    step (placeWord (.port p) s) = exec i s :=
  step_port (s := benchFirst p s) (rest := s.bench) rfl h

/-- A step at a placed stimulus word is its operation on the assembled block. -/
theorem step_placeWord_stimulus {w : Stim16} {i : Instr} (h : decodeStim16 w = .ok i) (s : State) :
    step (placeWord (.stim16 w) s) = exec i { s with bench := [] } :=
  step_stimulus (s := scheduleFirst (.stim w) s) (rest := s.schedule) rfl rfl h

/-- A placed vector's flags read as the vector (R86, log 3). -/
@[simp] theorem evt3_withEventVector (e : Evt3) (s : State) : (withEventVector e s).evt3 = e := by
  have bits : ∀ (b : Bool) (e : Evt3),
      (BitVec.ofBool (e.getLsbD 2) ++ BitVec.ofBool (e.getLsbD 1 && (b || e.getLsbD 1)) ++
        BitVec.ofBool (e.getLsbD 0) : BitVec 3) = e := by decide
  exact bits s.OCIE e

/-- A step at a placed event vector is its handler between trap entry and trap return, on the assembled block. -/
theorem step_placeWord_evt3 {e : Evt3} {ev : Event} (h : selectEvent e = some ev) (s : State) :
    step (placeWord (.evt3 e) s) =
      andThen (exec (handlerOf ev) (trapEntry ev (withEventVector e { s with bench := [] })))
        fun t => .next (trapReturn t) := by
  have hev : (scheduleFirst .dispatch (withEventVector e s)).pendingEvent = some ev := by
    rw [State.pendingEvent, show (scheduleFirst .dispatch (withEventVector e s)).evt3 = (withEventVector e s).evt3 from rfl,
      evt3_withEventVector, h]
  exact step_dispatcher_serves (rest := s.schedule) ⟨rfl, .inl rfl⟩ rfl hev

/-- An event's handler determines the event (R212). -/
theorem handlerOf_injective : Function.Injective handlerOf := by
  intro a b h
  cases a <;> cases b <;> cases h <;> rfl

/-- Settles O17, by the format of the code word that the table word stands for: the other two formats' clauses are excluded
by the operation's own word. -/
theorem placedTableWordRunsNext : Obligations.PlacedTableWordRunsNext := by
  intro s nbits w i hi
  obtain ⟨cw, hcw, hdec⟩ := decodeTableWord_eq_some hi
  have hplace : s.withFetchWord nbits w = placeWord cw s := by
    rw [State.withFetchWord, placeTableWord, hcw]
  rw [hplace]
  cases cw with
  | port p =>
    have hown := encode_of_decodePort hdec
    refine ⟨fun _ _ => step_placeWord_port hdec s, fun v hv => ?_, fun ev hev => ?_⟩
    · rw [hown] at hv; cases hv
    · obtain ⟨e, he⟩ := encode_handlerOf ev
      rw [hev, he] at hown; cases hown
  | stim16 v =>
    have hown := encode_of_decodeStim16 hdec
    refine ⟨fun p hp => ?_, fun _ _ => step_placeWord_stimulus hdec s, fun ev hev => ?_⟩
    · rw [hown] at hp; cases hp
    · obtain ⟨e, he⟩ := encode_handlerOf ev
      rw [hev, he] at hown; cases hown
  | evt3 e =>
    obtain ⟨ev, rfl, hsel⟩ := decodeEvt3_eq_ok hdec
    obtain ⟨e', hown⟩ := encode_handlerOf ev
    refine ⟨fun p hp => ?_, fun v hv => ?_, fun ev' hev => ?_⟩
    · rw [hown] at hp; cases hp
    · rw [hown] at hv; cases hv
    · rw [← handlerOf_injective hev, ← tableWord_eq_evt3 hcw, step_placeWord_evt3 hsel]

end Sys2Proof.Machine
end

section
/-! The end of a schedule (46_environment_ops.md R200, log 2): where all its entries are taken the dispatcher steps. -/

namespace Sys2Proof.Machine

/-- A run of one step more that ends in a next state begins with a step to a next state. -/
theorem core_run_succ_eq_next {n : Nat} {s t : State}
    (h : Host.Core.run Sys2Proof.core (n + 1) s = .next t) :
    ∃ u, step s = .next u ∧ Host.Core.run Sys2Proof.core n u = .next t := by
  cases hs : step s with
  | next u => exact ⟨u, rfl, by rwa [core_run_next n s u hs] at h⟩
  | fault e => cases e
  | refused r => rw [core_run_refused n s r hs] at h; cases h

/-- As many steps of the assembled block as entries are scheduled use the schedule up. -/
theorem core_run_empties_schedule {n : Nat} {s t : State} (hb : s.bench = []) (hn : s.schedule.length = n)
    (h : Host.Core.run Sys2Proof.core n s = .next t) : t.bench = [] ∧ t.schedule = [] := by
  induction n generalizing s with
  | zero =>
    cases h
    exact ⟨hb, List.length_eq_zero_iff.mp hn⟩
  | succ n ih =>
    obtain ⟨u, hu, hrun⟩ := core_run_succ_eq_next h
    obtain ⟨hus, hub⟩ := step_takes_entry s u hb hu
    have hlen : u.schedule.length = n := by rw [hus, List.length_tail, hn]; rfl
    exact ih hub hlen hrun

/-- A handler's operation always completes (R11). -/
theorem exec_handlerOf_next (ev : Event) (s : State) : ∃ t, exec (handlerOf ev) s = .next t := by
  cases ev with
  | zeroCross => exact runHandler_next .zeroCross s
  | timerCompare => exact runHandler_next .timerCompare s
  | conversionComplete => exact runHandler_next .conversionComplete s

/-- Settles O13: the used-up schedule gives the dispatcher its turn, and its step serves the selected event or does
nothing. -/
theorem scheduleEndsWithDispatch : Obligations.ScheduleEndsWithDispatch := by
  intro s t hb hrun
  obtain ⟨htb, hts⟩ := core_run_empties_schedule hb rfl hrun
  have hstep : step t = dispatchOne t := step_empty t htb hts
  refine ⟨htb, hts, fun hc => ?enabled, fun hc => ?idle⟩
  case enabled =>
    obtain ⟨ev, -, hev, -, -⟩ := dispatchOne_cases t hc
    have hg : t.GIE = true := unmasked_of_canDispatch hc
    obtain ⟨u, hu⟩ := exec_handlerOf_next ev (trapEntry ev t)
    exact ⟨ev, u, hev, hu, by rw [hstep, dispatchOne_serves t ev hg hev, serveEvent_eq_exec, hu, andThen_next]⟩
  case idle => rw [hstep, dispatchOne_disabled t hc]

end Sys2Proof.Machine
end

section
/-! The Duty Mapper (40_duty_mapper.md R111 to R113). -/

namespace Sys2Proof.Machine

/-- The port of `MAP`, with the values of R9 written out (R111, R112). -/
theorem mapPort_eq (x : Sample) :
    mapPort x =
      if 941 ≤ x.toNat then 100#7 else if x.toNat ≤ 220 then 0#7 else BitVec.ofNat 7 ((x.toNat - 205) * 100 / 818) := by
  rw [mapPort, mapToPercent_eq, apply_ite (BitVec.ofNat 7), apply_ite (BitVec.ofNat 7)]

/-- `MAP` puts out the percent of its sample and changes nothing else (R110). -/
theorem exec_map (x : Sample) (s : State) :
    exec (.map x) s = .next { s with ports := { s.ports with percentOut := mapPort x } } := rfl

/-- Settles O18. -/
theorem mapSaturatesOrInterpolates : Obligations.MapSaturatesOrInterpolates := by
  intro x s
  rw [exec_map, mapPort_eq]

/-- `MAP` is monotone (R113). -/
theorem mapToPercent_mono {x y : Nat} (h : x ≤ y) : mapToPercent parameters x ≤ mapToPercent parameters y := by
  rw [mapToPercent_eq, mapToPercent_eq]
  split_ifs <;> omega

/-- No sample maps into 90..99: the last sample below the upper threshold gives 89 (R113). -/
theorem mapToPercent_range (x : Nat) : mapToPercent parameters x ≤ 89 ∨ mapToPercent parameters x = 100 := by
  rw [mapToPercent_eq]
  split_ifs <;> omega

/-- A sample that maps to a percent of 1..89: the least one that is large enough, above the lower threshold (R113). -/
theorem mapToPercent_linear {p : Nat} (h1 : 1 ≤ p) (h89 : p ≤ 89) :
    mapToPercent parameters (max 221 (205 + (818 * p + 99) / 100)) = p := by
  rw [mapToPercent_eq, if_neg (by omega), if_neg (by omega)]
  omega

/-- Each percent of the image is reached from a sample of the port's range (R113). -/
theorem exists_mapPort_toNat_eq {p : Nat} (h : p ≤ 89 ∨ p = 100) : ∃ x : Sample, (mapPort x).toNat = p := by
  have reached : ∀ x : Nat, x < 1024 → mapToPercent parameters x = p → ∃ x : Sample, (mapPort x).toNat = p := by
    intro x hx hp
    exact ⟨BitVec.ofNat 10 x, by rw [mapPort_toNat, BitVec.toNat_ofNat, Nat.mod_eq_of_lt hx, hp]⟩
  rcases h with h89 | rfl
  · rcases Nat.eq_zero_or_pos p with rfl | h1
    · exact reached 0 (by omega) (by decide)
    · exact reached _ (by omega) (mapToPercent_linear h1 h89)
  · exact reached 1023 (by omega) (by decide)

/-- Settles O19: monotone, in the range, and each percent of it reached. -/
theorem mapIsMonotoneOntoItsImage : Obligations.MapIsMonotoneOntoItsImage := by
  intro s
  refine ⟨fun x y t u ht hu hlt => ?mono, fun p => ⟨?inRange, ?reached⟩⟩
  case mono =>
    cases ht
    cases hu
    simpa only [mapPort_toNat] using mapToPercent_mono hlt.le
  case inRange =>
    rintro ⟨x, t, ht, rfl⟩
    cases ht
    simpa only [mapPort_toNat] using mapToPercent_range x.toNat
  case reached =>
    intro h
    obtain ⟨x, hx⟩ := exists_mapPort_toNat_eq h
    exact ⟨x, _, rfl, hx⟩

end Sys2Proof.Machine
end

section
/-! The Delay Translator: from percent to delay, from delay to count, and the command word of a percent
(41_delay_translator.md R121 to R129). -/

namespace Sys2Proof.Machine

/-- `P2D` with the values of R9 written out: the subtraction on natural numbers stops at 0, which is the clamp (R121 to
R123). -/
theorem percentToDelay_eq (p : Nat) :
    percentToDelay parameters p =
      if p = 0 then none else if p = 100 then some Config.fullPowerDelay.val else some (9000 - 100 * p) := by
  have hraw : (max ((parameters.halfPeriodUs : Int) -
      ((parameters.halfPeriodUs / 100 : Nat) * (p : Int) + parameters.detectorDelayUs)) 0).toNat = 9000 - 100 * p := by
    simp only [parameters]
    omega
  simp only [percentToDelay, hraw]
  rfl

/-- Zero percent has no delay, and it is the only one (R123). -/
theorem percentToDelay_eq_none_iff (p : Nat) : percentToDelay parameters p = none ↔ p = 0 := by
  rw [percentToDelay_eq]
  split_ifs <;> simp_all

/-- `P2D` of a PowerPercent puts out its delay and changes nothing else (R120). -/
theorem exec_p2d {p : Percent} (h : p.toNat ≤ 100) (s : State) :
    exec (.p2d p) s = .next { s with ports := { s.ports with delayOut := delayPort p } } := if_pos h

/-- The delay port of a PowerPercent, written out (R121 to R123). -/
theorem delayPort_eq (p : Percent) :
    delayPort p =
      if p.toNat = 0 then none
      else if p.toNat = 100 then some (BitVec.ofNat 14 Config.fullPowerDelay.val)
      else if p.toNat ≤ 90 then some (BitVec.ofNat 14 (9000 - 100 * p.toNat))
      else some 0#14 := by
  rw [delayPort, percentToDelay_eq]
  split_ifs with h0 h100 h90
  · rfl
  · rfl
  · rfl
  · rw [show 9000 - 100 * p.toNat = 0 by omega]
    rfl

/-- Settles O21. -/
theorem percentToDelayResult : Obligations.PercentToDelayResult := by
  intro p s h
  rw [exec_p2d h, delayPort_eq]

/-- The count at prescaler 8 (R125). -/
theorem countFor_by8 (d : Nat) : countFor parameters d .by8 = min ((6 * d + 5) / 10 - 1) 255 := by
  simp only [countFor, ticksFor, roundQuotient, parameters, divisor, clamp]
  omega

/-- The count at prescaler 64 (R125). -/
theorem countFor_by64 (d : Nat) : countFor parameters d .by64 = min ((3 * d + 20) / 40 - 1) 255 := by
  simp only [countFor, ticksFor, roundQuotient, parameters, divisor, clamp]
  omega

/-- The count at prescaler 256 (R125). -/
theorem countFor_by256 (d : Nat) : countFor parameters d .by256 = min ((3 * d + 80) / 160 - 1) 255 := by
  simp only [countFor, ticksFor, roundQuotient, parameters, divisor, clamp]
  omega

/-- The count is held at 255 (R125). -/
theorem countFor_le (d : Nat) (n : Prescaler) : countFor parameters d n ≤ 255 := by
  simp only [countFor, clamp]
  omega

/-- The count fits its eight bits (R125). -/
theorem countFor_toNat (d : Nat) (n : Prescaler) :
    (BitVec.ofNat 8 (countFor parameters d n)).toNat = countFor parameters d n := by
  have := countFor_le d n
  rw [BitVec.toNat_ofNat, Nat.mod_eq_of_lt (by omega)]

/-- Settles O23, by the prescaler. -/
theorem compareCountIntegerForms : Obligations.CompareCountIntegerForms :=
  fun d => ⟨countFor_by8 d, countFor_by64 d, countFor_by256 d⟩

/-- Settles O24, by the range of the delay: the answer of `D2P` is O22's, its count the integer form of that range. -/
theorem compareCountSaturatesOnlyOutOfDomain : Obligations.CompareCountSaturatesOnlyOutOfDomain := by
  intro d s t ht
  obtain ⟨h8, h64, h256⟩ := delayToProgramStrictBoundaries d s
  have count256 : 3400 ≤ d.toNat → t.ports.csOut = 0b100#3 ∧
      t.ports.ccOut.toNat = min ((3 * d.toNat + 80) / 160 - 1) 255 := by
    intro h
    cases ht.symm.trans (h256 h)
    exact ⟨rfl, by rw [countFor_toNat, countFor_by256]⟩
  refine ⟨fun h => ?_, fun hlo hhi => ?_, fun hlo hhi => ?_, fun hlo hhi => ?_, fun hlo => ?_⟩
  · cases ht.symm.trans (h8 h)
    rw [countFor_toNat, countFor_by8]
    omega
  · cases ht.symm.trans (h64 hlo hhi)
    rw [countFor_toNat, countFor_by64]
    omega
  · have := (count256 hlo).2
    omega
  · have := (count256 hlo).2
    omega
  · obtain ⟨hcs, hcc⟩ := count256 (by omega)
    refine ⟨hcs, BitVec.eq_of_toNat_eq ?_⟩
    rw [hcc, BitVec.toNat_ofNat]
    omega

/-- `CALC` answers STOP at zero percent (R127). -/
theorem calcPort_zero {p : Percent} (h : p.toNat = 0) : calcPort p = some .stop := by
  rw [calcPort, calcCommand, if_neg (by omega), percentToDelay_eq, if_pos h]

/-- `CALC` answers the firing delay's program on 1..99 (R127). -/
theorem calcPort_linear {p : Percent} (h1 : 1 ≤ p.toNat) (h99 : p.toNat ≤ 99) :
    calcPort p = some (.program (delayToProgram parameters (9000 - 100 * p.toNat))) := by
  rw [calcPort, calcCommand, if_neg (by omega), percentToDelay_eq, if_neg (by omega), if_neg (by omega)]

/-- `CALC` answers the open full-power program at 100 (R127). -/
theorem calcPort_full {p : Percent} (h : p.toNat = 100) :
    calcPort p = some (.program (delayToProgram parameters Config.fullPowerDelay.val)) := by
  rw [calcPort, calcCommand, if_neg (by omega), percentToDelay_eq, if_neg (by omega), if_pos h]

/-- `CALC` answers nothing above 100 (R128). -/
theorem calcPort_above {p : Percent} (h : 100 < p.toNat) : calcPort p = none := by
  rw [calcPort, calcCommand, if_pos h]

/-- `CALC` answers STOP for zero percent only (R127). -/
theorem calcPort_eq_stop_iff {p : Percent} {c : TimerCommand} (hc : calcPort p = some c) : c = .stop ↔ p.toNat = 0 := by
  rw [calcPort, calcCommand] at hc
  split at hc
  next => cases hc
  next =>
    split at hc
    next hnone =>
      cases hc
      exact iff_of_true rfl ((percentToDelay_eq_none_iff _).mp hnone)
    next d hd =>
      cases hc
      refine iff_of_false nofun fun h0 => ?_
      rw [(percentToDelay_eq_none_iff _).mpr h0] at hd
      cases hd

/-- `CALC` puts out the word of its answer and changes nothing else (R127). -/
theorem exec_calcWord {p : Percent} {c : TimerCommand} (hc : calcPort p = some c) (s : State) :
    exec (.calcWord p) s = .next { s with ports := { s.ports with tcmdOut := commandWord c } } := by
  simp only [exec, execCalc, hc]

/-- Where `CALC` completes, its port holds the word of its answer (R127, R128). -/
theorem exec_calcWord_eq_next {p : Percent} {s t : State} (h : exec (.calcWord p) s = .next t) :
    ∃ c, calcPort p = some c ∧ t.ports.tcmdOut = commandWord c := by
  cases hc : calcPort p with
  | none =>
    simp only [exec, execCalc, hc, refuse] at h
    cases h
  | some c =>
    cases h.symm.trans (exec_calcWord hc s)
    exact ⟨c, rfl, rfl⟩

/-- Settles O25, by the percent: zero, a hundred, and between. -/
theorem calcCommandResult : Obligations.CalcCommandResult := by
  intro p s h
  dsimp only
  split_ifs with h0 h100
  · exact exec_calcWord (calcPort_zero h0) s
  · exact exec_calcWord (calcPort_full h100) s
  · exact exec_calcWord (calcPort_linear (by omega) (by omega)) s

/-- The word of a program, by its number (R85). -/
theorem commandWord_program_toNat (tp : TimerProgram) :
    (commandWord (.program tp)).toNat = 2048 + 256 * (sel tp.prescaler).toNat + tp.count.toNat :=
  programWord_toNat _ _

/-- The word of `D2P`'s answer, by its number, once the prescaler is known (R85, R124). -/
theorem delayWord_toNat {d c : Nat} {n : Prescaler} (hn : prescalerFor parameters d = n)
    (hc : countFor parameters d n = c) :
    (commandWord (.program (delayToProgram parameters d))).toNat = 2048 + 256 * (sel n).toNat + c := by
  subst hn hc
  rw [commandWord_program_toNat, delayToProgram, countFor_toNat]

/-- The words of the linear percents, by their numbers, one row for each prescaler (R129, 95_test_vectors.md 2.3). -/
theorem calcWord_linear_toNat {p : Percent} {s t : State} (h : exec (.calcWord p) s = .next t) (h1 : 1 ≤ p.toNat)
    (h99 : p.toNat ≤ 99) :
    (p.toNat ≤ 56 → t.ports.tcmdOut.toNat = 0xC00 + ((3 * (9000 - 100 * p.toNat) + 80) / 160 - 1)) ∧
    (57 ≤ p.toNat → p.toNat ≤ 85 → t.ports.tcmdOut.toNat = 0xB00 + ((3 * (9000 - 100 * p.toNat) + 20) / 40 - 1)) ∧
    (86 ≤ p.toNat → t.ports.tcmdOut.toNat = 0xA00 + ((6 * (9000 - 100 * p.toNat) + 5) / 10 - 1)) := by
  obtain ⟨c, hc, hword⟩ := exec_calcWord_eq_next h
  cases hc.symm.trans (calcPort_linear h1 h99)
  rw [hword]
  refine ⟨fun h56 => ?_, fun h57 h85 => ?_, fun h86 => ?_⟩
  · refine delayWord_toNat (n := .by256) (prescalerFor_eq_by256 ?_ ?_) ?_
    · change 425 ≤ _; omega
    · change 3400 ≤ _; omega
    · rw [countFor_by256]; omega
  · refine delayWord_toNat (n := .by64) (prescalerFor_eq_by64 ?_ ?_) ?_
    · change 425 ≤ _; omega
    · change _ < 3400; omega
    · rw [countFor_by64]; omega
  · refine delayWord_toNat (n := .by8) (prescalerFor_eq_by8 ?_) ?_
    · change _ < 425; omega
    · rw [countFor_by8]; omega

/-- Settles O26: the numbers of the words, range by range. -/
theorem calcTableShape : Obligations.CalcTableShape := by
  intro p q s t u ht hu
  refine ⟨fun h1 h56 => ?_, fun h57 h85 => ?_, fun h86 h89 => ?_, fun h90 h99 => ?_, fun h1 hlt hq => ?_⟩
  · have hw := (calcWord_linear_toNat ht h1 (by omega)).1 h56
    omega
  · have hw := (calcWord_linear_toNat ht (by omega) (by omega)).2.1 h57 h85
    omega
  · have hw := (calcWord_linear_toNat ht (by omega) (by omega)).2.2 h86
    omega
  · have hw := (calcWord_linear_toNat ht (by omega) h99).2.2 (by omega)
    refine BitVec.eq_of_toNat_eq ?_
    rw [hw, BitVec.toNat_ofNat]
    omega
  · obtain ⟨p256, p64, p8⟩ := calcWord_linear_toNat ht h1 (by omega)
    obtain ⟨q256, q64, q8⟩ := calcWord_linear_toNat hu (by omega) (by omega)
    omega

/-- A command's own word decodes to a well-formed operation, which is `TSTOP` for STOP only (R85). -/
theorem decodeTcmd12_commandWord (c : TimerCommand) :
    ∃ i, decodeTcmd12 (commandWord c) = .ok i ∧ i.wellFormed = true ∧ (i = .tstop ↔ c = .stop) := by
  cases c with
  | stop => exact ⟨.tstop, rfl, rfl, by simp⟩
  | program tp =>
    exact ⟨_, decodeTcmd12_programWord _ _, (programSelectLegal_iff _).mpr ⟨tp.prescaler, rfl⟩, by simp⟩

/-- Settles O27: the port holds a command's own word, and the command is STOP at zero percent only. -/
theorem calcNeverProducesReservedWord : Obligations.CalcNeverProducesReservedWord := by
  intro p s t h
  obtain ⟨c, hc, hword⟩ := exec_calcWord_eq_next h
  obtain ⟨i, hi, hwf, hstop⟩ := decodeTcmd12_commandWord c
  exact ⟨i, hword ▸ hi, hwf, hstop.trans (calcPort_eq_stop_iff hc)⟩

/-- Settles O28, by the function. -/
theorem percentAboveHundredRefused : Obligations.PercentAboveHundredRefused := by
  intro p s h
  refine ⟨if_neg (by omega), ?calcWord⟩
  case calcWord =>
    simp only [exec, execCalc, calcPort_above h]
    rfl

end Sys2Proof.Machine
end

section
/-! The Timer Driver: refused programs, ticks inside a program and after it, and repeated commands (42_timer_driver.md R143
to R150). -/

namespace Sys2Proof.Machine

/-- A clock select that is none of the three legal codes has no prescaler (R82). -/
theorem presc_eq_none {cs : BitVec 3} (h8 : cs ≠ 0b010#3) (h64 : cs ≠ 0b011#3) (h256 : cs ≠ 0b100#3) :
    presc cs = none := by
  rw [presc, if_neg h8, if_neg h64, if_neg h256]

/-- `TPROG` refuses a clock select without a prescaler (R147). -/
theorem exec_tprog_refused {cs : BitVec 3} (h : presc cs = none) (cc : Byte) (s : State) :
    exec (.tprog cs cc) s = .refused (.reservedTcmd12 { s with REFUSED := true }) := by
  simp only [exec, execTprog, programFields, h, refuse]

/-- Settles O30. -/
theorem programWithReservedSelectRefused : Obligations.ProgramWithReservedSelectRefused :=
  fun _ cc s h8 h64 h256 => exec_tprog_refused (presc_eq_none h8 h64 h256) cc s

/-- The timer agent's step can be exchanged with a write that leaves the clock alone, if a tick can. -/
theorem timerAgent_exchange {f : State → State} {s : State} (hclock : (f s).CS = s.CS)
    (htick : timerTick (f s) = f (timerTick s)) : timerAgent (f s) = f (timerAgent s) := by
  by_cases hstop : s.CS = .stopped
  · rw [timerAgent_stopped s hstop, timerAgent_stopped (f s) (hclock.trans hstop)]
  · rw [timerAgent_running s hstop, timerAgent_running (f s) (hclock ▸ hstop), htick]

/-- A tick can be exchanged with entering the lock, which writes the mask (R142). -/
theorem timerAgent_tprogEnter (s : State) : timerAgent (tprogEnter s) = tprogEnter (timerAgent s) :=
  timerAgent_exchange rfl rfl

/-- A tick can be exchanged with S1, which writes the interrupt's enable (R143). -/
theorem timerAgent_tprogS1 (s : State) : timerAgent (tprogS1 s) = tprogS1 (timerAgent s) :=
  timerAgent_exchange rfl rfl

/-- A tick can be exchanged with S6, which writes the interrupt's enable (R143). -/
theorem timerAgent_tprogS6 (s : State) : timerAgent (tprogS6 s) = tprogS6 (timerAgent s) :=
  timerAgent_exchange rfl rfl

/-- A tick can be exchanged with leaving the lock, which writes the mask (R142). -/
theorem timerAgent_tprogLeave (saved : Bool) (s : State) :
    timerAgent (tprogLeave saved s) = tprogLeave saved (timerAgent s) :=
  timerAgent_exchange rfl rfl

/-- A tick after S5 and before the end is a tick after the command (R143). -/
theorem timerAgent_timerProgram (n : Prescaler) (cc : Byte) (s : State) :
    timerAgent (timerProgram n cc s) =
      tprogLeave s.GIE (tprogS6 (timerAgent (tprogS5 n (tprogS4 cc (tprogS3 (tprogS2 (tprogS1 (tprogEnter s)))))))) := by
  rw [timerProgram, timerAgent_tprogLeave, timerAgent_tprogS6]

/-- The mask is not the timer's. -/
theorem timerAgent_GIE (s : State) : (timerAgent s).GIE = s.GIE := by simp

/-- Settles O31, by the place of the tick: before S2 it moves before the command, from S2 to S5 the clock stands, after S5 it
moves behind the command. -/
theorem tickInsideProgramIsHarmless : Obligations.TickInsideProgramIsHarmless := by
  intro n cc s run4
  refine ⟨?beforeS1, ?beforeS2, rfl, rfl, rfl, ?beforeS6, ?afterS6⟩
  case beforeS1 => rw [timerAgent_tprogEnter, ← timerAgent_GIE s, timerProgram]
  case beforeS2 => rw [timerAgent_tprogS1, timerAgent_tprogEnter, ← timerAgent_GIE s, timerProgram]
  case beforeS6 => rw [timerAgent_timerProgram]
  case afterS6 => rw [timerAgent_timerProgram, timerAgent_tprogS6]

/-- A tick that does not find the counter at the compare register only counts (R195). -/
theorem timerAgent_before_match {s : State} (hrun : s.CS ≠ .stopped) (hno : s.OCF = false) (hne : s.TCNT ≠ s.OCR) :
    timerAgent s = { s with TCNT := s.TCNT + 1#8 } := by
  rw [timerAgent_running s hrun, timerTick, hno, Bool.false_or, State.atMatch, beq_eq_false_iff_ne.mpr hne]

/-- A tick that finds the counter at the compare register raises the flag (R195). -/
theorem timerAgent_at_match {s : State} (hrun : s.CS ≠ .stopped) (heq : s.TCNT = s.OCR) :
    timerAgent s = { s with OCF := true, TCNT := s.TCNT + 1#8 } := by
  rw [timerAgent_running s hrun, timerTick, State.atMatch, beq_iff_eq.mpr heq, Bool.or_true]

/-- As long as the match lies ahead, ticks only count (R150). -/
theorem iterate_timerAgent_counting {s : State} {c : Byte} (hrun : s.CS ≠ .stopped) (hno : s.OCF = false)
    (htarget : s.OCR = s.TCNT + c) (k : Nat) (hk : k ≤ c.toNat) :
    timerAgent^[k] s = { s with TCNT := s.TCNT + BitVec.ofNat 8 k } := by
  induction k with
  | zero => simp
  | succ k ih =>
    have hne : s.TCNT + BitVec.ofNat 8 k ≠ s.OCR := by
      rw [htarget]
      intro h
      have hkc := congrArg BitVec.toNat (BitVec.add_right_inj s.TCNT |>.mp h)
      rw [BitVec.toNat_ofNat] at hkc
      omega
    rw [Function.iterate_succ_apply', ih (by omega),
      timerAgent_before_match (s := { s with TCNT := s.TCNT + BitVec.ofNat 8 k }) hrun hno hne, BitVec.add_assoc,
      BitVec.ofNat_add]

/-- The tick after those that only count finds the match (R150). -/
theorem iterate_timerAgent_match {s : State} {c : Byte} (hrun : s.CS ≠ .stopped) (hno : s.OCF = false)
    (htarget : s.OCR = s.TCNT + c) :
    timerAgent^[c.toNat + 1] s = { s with OCF := true, TCNT := s.TCNT + c + 1#8 } := by
  rw [Function.iterate_succ_apply', iterate_timerAgent_counting hrun hno htarget c.toNat le_rfl, BitVec.ofNat_toNat,
    BitVec.setWidth_eq]
  exact timerAgent_at_match (s := { s with TCNT := s.TCNT + c }) hrun htarget.symm

/-- Settles O32: a fresh program has its match `cc` counts ahead. -/
theorem matchAtTickCountPlusOne : Obligations.MatchAtTickCountPlusOne := by
  intro n cc s t ht
  cases (exec_tprog_sel n cc s).symm.trans ht
  obtain ⟨hrun, hno, htarget⟩ : (timerProgram n cc s).CS ≠ .stopped ∧ (timerProgram n cc s).OCF = false ∧
      (timerProgram n cc s).OCR = (timerProgram n cc s).TCNT + cc := by simp
  have matched := iterate_timerAgent_match hrun hno htarget
  refine ⟨fun k hk => ?before, ?flag, ?counter⟩
  case before =>
    rw [iterate_timerAgent_counting hrun hno htarget k hk]
    exact hno
  case flag => rw [matched]
  case counter => rw [matched]; simp

/-- Settles O33. -/
theorem stopDisablesAndHalts : Obligations.StopDisablesAndHalts := fun _ => rfl

/-- A later program replaces an earlier one completely (R148). -/
theorem timerProgram_timerProgram (m n : Prescaler) (dd cc : Byte) (s : State) :
    timerProgram n cc (timerProgram m dd s) = timerProgram n cc s := by
  simp only [timerProgram_eq]

/-- Settles O34, by the command; a program after itself is a program after another. -/
theorem laterCommandReplacesEarlier : Obligations.LaterCommandReplacesEarlier := by
  have replaces : ∀ (m n : Prescaler) (dd cc : Byte) (s t : State), exec (.tprog (sel m) dd) s = .next t →
      exec (.tprog (sel n) cc) t = exec (.tprog (sel n) cc) s := by
    intro m n dd cc s t ht
    cases (exec_tprog_sel m dd s).symm.trans ht
    rw [exec_tprog_sel, exec_tprog_sel, timerProgram_timerProgram]
  refine ⟨fun s t ht => ?_, fun n cc s t ht => ?_, replaces⟩
  · cases ht
    rfl
  · rw [replaces n n cc cc s t ht, ht]

end Sys2Proof.Machine
end

section
/-! The zero-cross handler and the conversion's latch (44_cycle_sequencer.md R171, R173; 45_analog_latch.md R181). -/

namespace Sys2Proof.Machine

/-- `H_ZC` once its command is known (R173). -/
theorem exec_hZc {s : State} {c : TimerCommand} (hc : calcPort (mapPort s.AS) = some c) :
    exec .hZc s = .next (zeroCrossNext c s) := by
  obtain ⟨c', hc', he⟩ := execHZc_next s
  cases hc.symm.trans hc'
  exact he

/-- The command of a sample is that of the percent it maps to (R171). -/
theorem calcPort_mapPort_eq (x : Sample) :
    calcPort (mapPort x) = calcCommand parameters (mapToPercent parameters x.toNat) := by
  rw [calcPort, mapPort_toNat]

/-- The command of a sample whose percent has no delay (R123, R127). -/
theorem calcPort_mapPort_of_none {x : Sample}
    (h : percentToDelay parameters (mapToPercent parameters x.toNat) = none) :
    calcPort (mapPort x) = some .stop := by
  have hle := mapToPercent_le x.toNat
  rw [calcPort_mapPort_eq, calcCommand, if_neg (by omega), h]

/-- The command of a sample whose percent has a delay (R127). -/
theorem calcPort_mapPort_of_some {x : Sample} {d : Nat}
    (h : percentToDelay parameters (mapToPercent parameters x.toNat) = some d) :
    calcPort (mapPort x) = some (.program (delayToProgram parameters d)) := by
  have hle := mapToPercent_le x.toNat
  rw [calcPort_mapPort_eq, calcCommand, if_neg (by omega), h]

/-- Settles O36: the percent's delay decides the command, the command the handler's next state, and bit 2 of the vector the
selection. -/
theorem zeroCrossHandlerFourSteps : Obligations.ZeroCrossHandlerFourSteps := by
  intro s p
  refine ⟨percentToDelay_eq_none_iff p, fun h => ?stop, fun d h => ?program, fun rest hb hs hg he => ?selected⟩
  case stop => exact exec_hZc (calcPort_mapPort_of_none h)
  case program => exact exec_hZc (calcPort_mapPort_of_some h)
  case selected =>
    have hev : selectEvent s.evt3 = some .zeroCross := if_pos he
    rw [step_dispatch_serves hb hs hg hev, serveEvent_eq_exec, trapEntry_zeroCross]
    rfl

/-- Settles O20, by the operation: `P2D`, `CALC`, and `H_ZC` on the command that `CALC` gives. -/
theorem zeroPercentStopsTheTimer : Obligations.ZeroPercentStopsTheTimer := by
  intro s
  refine ⟨rfl, exec_calcWord (calcPort_zero rfl) s, fun h => ?handler⟩
  case handler =>
    have hc : calcPort (mapPort s.AS) = some .stop := by rw [h, calcPort_zero rfl]
    exact exec_hZc hc

/-- Settles O37. -/
theorem conversionHandlerLatchesParts : Obligations.ConversionHandlerLatchesParts := execHCc_eq

end Sys2Proof.Machine
end

section
/-! The operations of the environment: reset, start, the events, and the loops `RUN` and `TICK` (46_environment_ops.md R191
to R198). -/

namespace Sys2Proof.Machine

/-- Settles O39, cell by cell. -/
theorem resetStateValues : Obligations.ResetStateValues :=
  ⟨rfl, rfl, rfl, rfl, rfl, rfl, rfl, rfl, rfl, rfl, rfl, rfl, rfl⟩

/-- Settles O40: the state that `RST` leaves is its own witness for the four drawn cells. -/
theorem resetOperationResult : Obligations.ResetOperationResult := fun s => ⟨resetCells s, rfl, rfl⟩

/-- `START` after a reset (R192). -/
theorem exec_start_halted {s : State} (h : s.HALTED = true) :
    exec .start s = .next { s with ADBUSY := true, GIE := true, HALTED := false } := if_pos h

/-- `START` a second time (R192). -/
theorem exec_start_started {s : State} (h : s.HALTED = false) : exec .start s = .next s :=
  if_neg (Bool.eq_false_iff.mp h)

/-- Settles O41, by whether the block has been started. -/
theorem startIsOneShot : Obligations.StartIsOneShot := fun _ => ⟨exec_start_halted, exec_start_started⟩

/-- Settles O42. -/
theorem edgeAndMatchEventsOnlyPend : Obligations.EdgeAndMatchEventsOnlyPend := fun _ => ⟨rfl, rfl⟩

/-- `ADC` with no conversion in progress (R194). -/
theorem execAdc_idle {s : State} (v : Sample) (h : s.ADBUSY = false) : execAdc v s = .next s :=
  if_neg (Bool.eq_false_iff.mp h)

/-- Settles O43, by whether a conversion is in progress. -/
theorem conversionCompletesOncePerRequest : Obligations.ConversionCompletesOncePerRequest :=
  fun v _ => ⟨execAdc_busy v, execAdc_idle v⟩

/-- `TICK` of one round more is a tick, a `RUN` and the other rounds (R196). -/
theorem exec_tick_succ {n m : BitVec 12} (h : m.toNat = n.toNat + 1) (s : State) :
    exec (.tick m) s = andThen (exec .run (timerAgent s)) (exec (.tick n)) := by
  rw [exec, execTick, h, tickLoop]
  rfl

/-- Settles O44. -/
theorem tickRepeatsTickThenRun : Obligations.TickRepeatsTickThenRun :=
  ⟨fun _ => rfl, fun _ _ s h => exec_tick_succ h s, fun n s => tickLoop_next n.toNat s⟩

/-- A dispatch is enabled exactly where handlers are unmasked and the vector is not empty (R199). -/
theorem canDispatch_of_evt3 {s : State} (hg : s.GIE = true) (he : s.evt3 ≠ 0b000#3) : s.canDispatch = true := by
  by_contra hc
  rcases (canDispatch_eq_false_iff s).mp (Bool.eq_false_iff.mpr hc) with h | h
  · rw [hg] at h; cases h
  · exact he h

/-- Settles O45: the two equations of the loop, and its end. -/
theorem runIsTheDispatchLoop : Obligations.RunIsTheDispatchLoop := by
  intro s
  refine ⟨fun h => ?idle, fun hg he => ?round, ?ends⟩
  case idle => exact runAll_idle s ((canDispatch_eq_false_iff s).mpr h)
  case round => exact runAll_unfold s (canDispatch_of_evt3 hg he)
  case ends =>
    obtain ⟨t, ht, -⟩ := runAll_next s
    exact ⟨t, ht⟩

/-- A dispatch ends with handlers unmasked (R218). -/
theorem dispatchOne_GIE {s t : State} (hc : s.canDispatch = true) (h : dispatchOne s = .next t) : t.GIE = true := by
  obtain ⟨u, hu, -, hg⟩ := dispatchOne_waiting s hc
  cases h.symm.trans hu
  exact hg

/-- `RUN` with handlers unmasked leaves them unmasked (R218). -/
theorem runAll_GIE {s t : State} (hg : s.GIE = true) (h : runAll s = .next t) : t.GIE = true :=
  runAll_induct (fun u => u.GIE = true) (fun _ _ _ hc hd => dispatchOne_GIE hc hd) s t hg h

/-- `RUN` leaves no dispatch enabled (R198). -/
theorem runAll_quiet {s t : State} (h : runAll s = .next t) : t.canDispatch = false := by
  obtain ⟨u, hu, hq⟩ := runAll_next s
  cases h.symm.trans hu
  exact hq

/-- With handlers unmasked and no dispatch enabled, nothing is pending and enabled (R199). -/
theorem nothing_pending {s : State} (hg : s.GIE = true) (hq : s.canDispatch = false) :
    s.ZCF = false ∧ s.ADIF = false ∧ (s.OCF && s.OCIE) = false := by
  rw [canDispatch_eq, hg, Bool.true_and, Bool.or_eq_false_iff, Bool.or_eq_false_iff] at hq
  obtain ⟨⟨hz, hm⟩, ha⟩ := hq
  exact ⟨hz, ha, hm⟩

/-- Settles O46. -/
theorem runLeavesNothingPending : Obligations.RunLeavesNothingPending := by
  intro s t h hg
  have htg : t.GIE = true := runAll_GIE hg h
  exact ⟨htg, nothing_pending htg (runAll_quiet h)⟩

end Sys2Proof.Machine
end

section
/-! What an operation that is no handler and no loop can do, said once; and the induction over the parts of a step that the
whole block's rules are proved with. -/

namespace Sys2Proof

/-- The operation is one of the four pure functions (R84). -/
def Instr.IsFunction (i : Instr) : Prop :=
  (∃ x, i = .map x) ∨ (∃ p, i = .p2d p) ∨ (∃ d, i = .d2p d) ∨ ∃ p, i = .calcWord p

/-- The operation is a command of the Timer Driver (R85). -/
def Instr.IsCommand (i : Instr) : Prop := (∃ cs cc, i = .tprog cs cc) ∨ i = .tstop

end Sys2Proof

namespace Sys2Proof.Machine

/-- The next states of the operations that serve no event: the pure functions, the Timer Driver's commands, reset, start and
the three events of the environment. -/
inductive OwnEffect : Instr → State → State → Prop
  | function {i : Instr} (s : State) (p : Ports) (hi : i.IsFunction) : OwnEffect i s { s with ports := p }
  | program (n : Prescaler) (cc : Byte) (s : State) : OwnEffect (.tprog (sel n) cc) s (timerProgram n cc s)
  | stop (s : State) : OwnEffect .tstop s (timerStop s)
  | reset (s : State) : OwnEffect .rst s (resetCells s)
  | start (s : State) (h : s.HALTED = true) :
      OwnEffect .start s { s with ADBUSY := true, GIE := true, HALTED := false }
  | started (s : State) (h : s.HALTED = false) : OwnEffect .start s s
  | edge (s : State) : OwnEffect .zc s { s with ZCF := true }
  | completed (v : Sample) (s : State) (h : s.ADBUSY = true) : OwnEffect (.adc v) s (completeConversion v s)
  | unrequested (v : Sample) (s : State) (h : s.ADBUSY = false) : OwnEffect (.adc v) s s
  | compareEvent (s : State) : OwnEffect .cm s { s with OCF := true }

/-- A program that completes has a legal clock select and is that program (R147). -/
theorem exec_tprog_eq_next {cs : BitVec 3} {cc : Byte} {s t : State} (h : exec (.tprog cs cc) s = .next t) :
    ∃ n, cs = sel n ∧ t = timerProgram n cc s := by
  cases hn : presc cs with
  | none => rw [exec_tprog_refused hn] at h; cases h
  | some n =>
    obtain rfl := (presc_eq_some cs n).mp hn
    cases h.symm.trans (exec_tprog_sel n cc s)
    exact ⟨n, rfl, rfl⟩

/-- `P2D` writes its output port, where it completes (R84). -/
theorem exec_p2d_eq_next {p : Percent} {s t : State} (h : exec (.p2d p) s = .next t) :
    ∃ o : Ports, t = { s with ports := o } := by
  simp only [exec, execP2d] at h
  split at h <;> cases h
  exact ⟨_, rfl⟩

/-- `CALC` writes its output port, where it completes (R84). -/
theorem exec_calcWord_ports {p : Percent} {s t : State} (h : exec (.calcWord p) s = .next t) :
    ∃ o : Ports, t = { s with ports := o } := by
  simp only [exec, execCalc] at h
  split at h <;> cases h
  exact ⟨_, rfl⟩

/-- An operation that is no handler and no loop has its own effect and no other. -/
theorem ownEffect_of_exec {i : Instr} {s t : State} (hz : i ≠ .hZc) (hm : i ≠ .hCm) (hc : i ≠ .hCc) (hr : i ≠ .run)
    (ht : ∀ n, i ≠ .tick n) (h : exec i s = .next t) : OwnEffect i s t := by
  cases i with
  | map x => cases h; exact .function s _ (.inl ⟨x, rfl⟩)
  | p2d p => obtain ⟨o, rfl⟩ := exec_p2d_eq_next h; exact .function s o (.inr (.inl ⟨p, rfl⟩))
  | d2p d => cases h; exact .function s _ (.inr (.inr (.inl ⟨d, rfl⟩)))
  | calcWord p => obtain ⟨o, rfl⟩ := exec_calcWord_ports h; exact .function s o (.inr (.inr (.inr ⟨p, rfl⟩)))
  | tprog cs cc => obtain ⟨n, rfl, rfl⟩ := exec_tprog_eq_next h; exact .program n cc s
  | tstop => cases h; exact .stop s
  | hZc => exact absurd rfl hz
  | hCm => exact absurd rfl hm
  | hCc => exact absurd rfl hc
  | rst => cases h; exact .reset s
  | start =>
    cases hh : s.HALTED with
    | true => cases h.symm.trans (exec_start_halted hh); exact .start s hh
    | false => cases h.symm.trans (exec_start_started hh); exact .started s hh
  | zc => cases h; exact .edge s
  | adc v =>
    cases hb : s.ADBUSY with
    | true => cases h.symm.trans (execAdc_busy v hb); exact .completed v s hb
    | false => cases h.symm.trans (execAdc_idle v hb); exact .unrequested v s hb
  | tick n => exact absurd rfl (ht n)
  | cm => cases h; exact .compareEvent s
  | run => exact absurd rfl hr

/-- The state with the step's word or entry taken: the bench goes first (R190, log 13). -/
def State.taken (s : State) : State :=
  { s with bench := s.bench.tail, schedule := if s.bench = [] then s.schedule.tail else s.schedule }

/-- Taking a port's word. -/
theorem taken_of_bench {s : State} {w : PortWord} {rest : List PortWord} (h : s.bench = w :: rest) :
    s.taken = { s with bench := rest } := by
  simp [State.taken, h]

/-- Taking an entry of the schedule. -/
theorem taken_of_schedule {s : State} {e : Entry} {rest : List Entry} (hb : s.bench = []) (hs : s.schedule = e :: rest) :
    s.taken = { s with schedule := rest } := by
  simp [State.taken, hb, hs]

/-- Where nothing is scheduled nothing is taken. -/
theorem taken_of_empty {s : State} (hb : s.bench = []) (hs : s.schedule = []) : s.taken = s := by
  cases s
  simp_all [State.taken]

/-- What a step to a next state does to the state with its entry taken (R190, R200). -/
theorem step_taken_cases {s t : State} (h : step s = .next t) :
    (∃ w i, s.bench.head? = some w ∧ decodePort w = .ok i ∧ exec i s.taken = .next t) ∨
    (s.bench = [] ∧ ∃ w i, s.schedule.head? = some (.stim w) ∧ decodeStim16 w = .ok i ∧ exec i s.taken = .next t) ∨
    (s.bench = [] ∧ (s.schedule = [] ∨ s.schedule.head? = some .dispatch) ∧ dispatchOne s.taken = .next t) ∨
    (s.bench = [] ∧ s.schedule.head? = some .tick ∧ t = timerAgent s.taken) := by
  rcases step_cases s t h with ⟨w, rest, i, hb, hw, hx⟩ | ⟨hb, hs, hx⟩ |
    ⟨hb, e, rest, hs, ⟨w, i, rfl, hw, hx⟩ | ⟨rfl, hx⟩ | ⟨rfl, ht⟩⟩
  · exact .inl ⟨w, i, by rw [hb]; rfl, hw, by rwa [taken_of_bench hb]⟩
  · exact .inr (.inr (.inl ⟨hb, .inl hs, by rwa [taken_of_empty hb hs]⟩))
  · exact .inr (.inl ⟨hb, w, i, by rw [hs]; rfl, hw, by rwa [taken_of_schedule hb hs]⟩)
  · exact .inr (.inr (.inl ⟨hb, .inr (by rw [hs]; rfl), by rwa [taken_of_schedule hb hs]⟩))
  · exact .inr (.inr (.inr ⟨hb, by rw [hs]; rfl, by rwa [taken_of_schedule hb hs]⟩))

/-- An operation other than a handler leads from `P` to `Q`, if ticks and dispatches keep `P` and the operations with an
effect of their own lead from `P` to `Q`. -/
theorem exec_leads {P Q : State → Prop} (hPQ : ∀ s, P s → Q s) (htick : ∀ s, P s → P (timerAgent s))
    (hdispatch : ∀ s t, P s → s.canDispatch = true → dispatchOne s = .next t → P t) {i : Instr} {s t : State}
    (hown : OwnEffect i s t → Q t) (hh : i ≠ .hZc ∧ i ≠ .hCm ∧ i ≠ .hCc) (hp : P s) (h : exec i s = .next t) : Q t := by
  obtain ⟨hz, hm, hc⟩ := hh
  by_cases hr : i = .run
  · subst hr
    exact hPQ t (runAll_induct P hdispatch s t hp h)
  · by_cases hn : ∃ n, i = .tick n
    · obtain ⟨n, rfl⟩ := hn
      exact hPQ t (tickLoop_induct P htick hdispatch n.toNat s t hp h)
    · exact hown (ownEffect_of_exec hz hm hc hr (fun n e => hn ⟨n, e⟩) h)

/-- A step leads from `P` to `Q`, if its taking an entry, ticks and dispatches keep `P`, and the operations that the next
word may select lead from `P` to `Q`. -/
theorem step_leads {P Q : State → Prop} {A : Instr → Prop} (hPQ : ∀ s, P s → Q s)
    (htaken : ∀ s, P s → P s.taken) (htick : ∀ s, P s → P (timerAgent s))
    (hdispatch : ∀ s t, P s → s.canDispatch = true → dispatchOne s = .next t → P t)
    (hown : ∀ i s t, P s → A i → OwnEffect i s t → Q t) {s t : State}
    (hport : ∀ w i, s.bench.head? = some w → decodePort w = .ok i → A i)
    (hstim : ∀ w i, s.bench = [] → s.schedule.head? = some (.stim w) → decodeStim16 w = .ok i → A i)
    (hp : P s) (h : step s = .next t) : Q t := by
  have hp' : P s.taken := htaken s hp
  rcases step_taken_cases h with ⟨w, i, hw, hi, hx⟩ | ⟨hb, w, i, hw, hi, hx⟩ | ⟨-, -, hx⟩ | ⟨-, -, rfl⟩
  · exact exec_leads hPQ htick hdispatch (hown i _ t hp' (hport w i hw hi)) (decodePort_not_handler w i hi) hp' hx
  · exact exec_leads hPQ htick hdispatch (hown i _ t hp' (hstim w i hb hw hi)) (decodeStim16_not_handler w i hi) hp' hx
  · exact hPQ t (dispatchOne_induct P hdispatch _ t hp' hx)
  · exact hPQ _ (htick _ hp')

/-- A stimulus word selects neither a function nor a command (R190). -/
theorem decodeStim16_not_command {w : Stim16} {i : Instr} (h : decodeStim16 w = .ok i) : ¬ i.IsCommand := by
  rintro (⟨cs, cc, rfl⟩ | rfl) <;> cases encode_of_decodeStim16 h

/-- A port's word selects no reset (R84, R85). -/
theorem decodePort_not_rst {w : PortWord} {i : Instr} (h : decodePort w = .ok i) : i ≠ .rst := by
  rintro rfl
  cases encode_of_decodePort h

/-- A port other than the Timer Driver's selects no command (R84). -/
theorem decodePort_not_command {s : State} (hs : s.noDirectCommand = true) {w : PortWord} {i : Instr}
    (hw : s.bench.head? = some w) (h : decodePort w = .ok i) : ¬ i.IsCommand := by
  obtain ⟨rest, hb⟩ := List.head?_eq_some_iff.mp hw
  rintro (⟨cs, cc, rfl⟩ | rfl) <;> cases encode_of_decodePort h <;> simp [State.noDirectCommand, hb] at hs

end Sys2Proof.Machine
end

section
/-! The sequencing invariant and the pulse invariant (43_firing_fsm.md R164; 42_timer_driver.md R145; 60_exceptions.md R213;
41_delay_translator.md R132). -/

namespace Sys2Proof.Machine

/-- A prescaler's clock runs (R28). -/
@[simp] theorem clockOf_bne_stopped (n : Prescaler) : (clockOf n != .stopped) = true := by cases n <;> rfl

/-- Settles O52: at reset the clock is stopped, the output off and the block halted. -/
theorem resetMeetsInvariants : Obligations.ResetMeetsInvariants := by
  refine ⟨⟨fun _ => rfl, rfl, rfl, rfl, rfl⟩, ⟨?_, ?_, ?_⟩⟩ <;> intro h <;> cases h

/-- After `START` handlers are unmasked between steps, and where they are unmasked the block is started (R213). -/
theorem State.Sequenced.not_halted {s : State} (h : s.Sequenced) (hc : s.canDispatch = true) : s.HALTED = false := by
  simpa [unmasked_of_canDispatch hc] using h.masked_iff_halted

/-- Serving a zero-cross keeps the sequencing invariant: the output is off, and the interrupt is enabled with the clock. -/
theorem State.Sequenced.zeroCross {s : State} (h : s.Sequenced) (hh : s.HALTED = false) (c : TimerCommand) :
    State.Sequenced { zeroCrossNext c s with ZCF := false, GIE := true } := by
  cases c with
  | stop => exact ⟨fun _ => rfl, rfl, congrArg not hh.symm, h.driver_idle, h.not_refused⟩
  | program tp =>
    exact ⟨fun _ => rfl, (clockOf_bne_stopped tp.prescaler).symm, congrArg not hh.symm, rfl, h.not_refused⟩

/-- Every enabled dispatch keeps the sequencing invariant. -/
theorem State.Sequenced.dispatch {s t : State} (h : s.Sequenced) (hc : s.canDispatch = true)
    (ht : dispatchOne s = .next t) : t.Sequenced := by
  have hh := h.not_halted hc
  have unmasked : true = !s.HALTED := congrArg not hh.symm
  rcases dispatchOne_effect s hc with ⟨-, c, -, e⟩ | ⟨-, -, -, -, e⟩ | ⟨-, -, -, hf, e⟩ | ⟨-, -, -, e⟩ <;>
    cases ht.symm.trans e
  · exact h.zeroCross hh c
  · exact ⟨nofun, rfl, unmasked, rfl, h.not_refused⟩
  · exact ⟨fun _ => rfl, h.enabled_iff_running, unmasked, h.driver_idle, h.not_refused⟩
  · exact ⟨h.armed_off, h.enabled_iff_running, unmasked, h.driver_idle, h.not_refused⟩

/-- A tick keeps the sequencing invariant: it writes the counter and the flag only. -/
theorem State.Sequenced.tick {s : State} (h : s.Sequenced) : (timerAgent s).Sequenced := by
  obtain ⟨harmed, henabled, hmasked, hidle, hrefused⟩ := h
  constructor <;> simpa [State.clockRuns]

/-- The operations that serve no event keep the sequencing invariant. -/
theorem State.Sequenced.own {i : Instr} {s t : State} (h : s.Sequenced) (he : OwnEffect i s t) : t.Sequenced := by
  obtain ⟨harmed, henabled, hmasked, hidle, hrefused⟩ := h
  cases he with
  | program n cc _ =>
    rw [timerProgram_eq]
    exact ⟨harmed, (clockOf_bne_stopped n).symm, hmasked, rfl, hrefused⟩
  | stop _ => exact ⟨harmed, rfl, hmasked, hidle, hrefused⟩
  | reset _ => exact ⟨fun _ => rfl, rfl, rfl, rfl, rfl⟩
  | start _ _ => exact ⟨harmed, henabled, rfl, hidle, hrefused⟩
  | _ => exact ⟨harmed, henabled, hmasked, hidle, hrefused⟩

/-- Settles O53, by the parts of a step: ticks, dispatches, and the operations that serve no event. -/
theorem stepKeepsSequencing : Obligations.StepKeepsSequencing := fun _ _ hp h =>
  step_leads (P := State.Sequenced) (A := fun _ => True) (fun _ h => h)
    (fun _ h => ⟨h.armed_off, h.enabled_iff_running, h.masked_iff_halted, h.driver_idle, h.not_refused⟩)
    (fun _ h => h.tick) (fun _ _ h hc ht => h.dispatch hc ht) (fun _ _ _ h _ he => h.own he) (fun _ _ _ _ => trivial)
    (fun _ _ _ _ _ => trivial) hp h

/-- Where the output is off the pulse invariant holds. -/
theorem pulseEnds_of_off {s : State} (h : s.TRIG = false) : s.PulseEnds := by
  constructor <;> intro ht <;> rw [h] at ht <;> cases ht

/-- Every enabled dispatch keeps the pulse invariant: the zero-cross and the match in Firing switch the output off, the
match in Armed starts the pulse program, and the conversion's latch touches nothing of it. -/
theorem State.PulseEnds.dispatch {s t : State} (h : s.PulseEnds) (hc : s.canDispatch = true)
    (ht : dispatchOne s = .next t) : t.PulseEnds := by
  rcases dispatchOne_effect s hc with ⟨-, c, -, e⟩ | ⟨-, -, -, -, e⟩ | ⟨-, -, -, -, e⟩ | ⟨-, -, -, e⟩ <;>
    cases ht.symm.trans e
  · exact pulseEnds_of_off (by cases c <;> rfl)
  · exact ⟨fun _ => rfl, fun _ => rfl, fun _ => rfl⟩
  · exact pulseEnds_of_off rfl
  · exact ⟨h.firing, h.enabled, h.clocked⟩

/-- A tick keeps the pulse invariant. -/
theorem State.PulseEnds.tick {s : State} (h : s.PulseEnds) : (timerAgent s).PulseEnds := by
  obtain ⟨hfiring, henabled, hclocked⟩ := h
  constructor <;> simpa

/-- The operations that serve no event and are no command keep the pulse invariant. -/
theorem State.PulseEnds.own {i : Instr} {s t : State} (h : s.PulseEnds) (hi : ¬ i.IsCommand) (he : OwnEffect i s t) :
    t.PulseEnds := by
  obtain ⟨hfiring, henabled, hclocked⟩ := h
  cases he with
  | program n cc _ => exact absurd (.inl ⟨_, _, rfl⟩) hi
  | stop _ => exact absurd (.inr rfl) hi
  | reset _ => exact pulseEnds_of_off rfl
  | _ => exact ⟨hfiring, henabled, hclocked⟩

/-- Settles O54, by the parts of a step, none of which is a command from outside. -/
theorem stepKeepsPulseEnding : Obligations.StepKeepsPulseEnding := fun _ _ hp hcmd h =>
  step_leads (P := State.PulseEnds) (A := fun i => ¬ i.IsCommand) (fun _ h => h)
    (fun _ h => ⟨h.firing, h.enabled, h.clocked⟩) (fun _ h => h.tick) (fun _ _ h hc ht => h.dispatch hc ht)
    (fun _ _ _ h hi he => h.own hi he) (fun _ _ hw hi => decodePort_not_command hcmd hw hi)
    (fun _ _ _ _ hi => decodeStim16_not_command hi) hp h

end Sys2Proof.Machine
end

section
/-! Rules about the whole block: one pulse between two zero-crosses, nothing before the start, the owners of the cells, and
the priority of the zero-cross (43_firing_fsm.md R165; 70_reset_and_hazards.md R241; 10_state.md R20; 60_exceptions.md
R215). -/

namespace Sys2Proof.Machine

/-- The controller is in Firing and the output is on at most where `on` says so. -/
structure State.FiringAtMost (on : Bool) (s : State) : Prop where
  firing : s.CST = .firing
  output : s.TRIG = true → on = true

/-- With no zero-cross pending an enabled dispatch stays in Firing and does not raise the output (R164, R165). -/
theorem State.FiringAtMost.dispatch {on : Bool} {s t : State} (h : s.FiringAtMost on) (hz : s.ZCF = false)
    (hc : s.canDispatch = true) (ht : dispatchOne s = .next t) : t.FiringAtMost on ∧ t.ZCF = false := by
  obtain ⟨hf, hout⟩ := h
  rcases dispatchOne_effect s hc with ⟨hz', -⟩ | ⟨-, -, -, ha, -⟩ | ⟨-, -, -, -, e⟩ | ⟨-, -, -, e⟩
  · rw [hz] at hz'; cases hz'
  · rw [hf] at ha; cases ha
  · cases ht.symm.trans e
    exact ⟨⟨hf, nofun⟩, hz⟩
  · cases ht.symm.trans e
    exact ⟨⟨hf, hout⟩, hz⟩

/-- The operations that serve no event and are no reset leave the controller and the output alone (R20). -/
theorem State.FiringAtMost.own {on : Bool} {i : Instr} {s t : State} (h : s.FiringAtMost on) (hi : i ≠ .rst)
    (he : OwnEffect i s t) : t.FiringAtMost on := by
  obtain ⟨hf, hout⟩ := h
  cases he with
  | reset _ => exact absurd rfl hi
  | program n cc _ => exact ⟨by simpa using hf, by simpa using hout⟩
  | _ => exact ⟨hf, hout⟩

/-- Settles O50, by the parts of a step: as long as no zero-cross is pending, ticks and dispatches keep Firing, and an edge
only pends. -/
theorem noSecondPulseBeforeZeroCross : Obligations.NoSecondPulseBeforeZeroCross := by
  intro s t h hf hz hrst
  have kept : t.FiringAtMost s.TRIG :=
    step_leads (P := fun u => u.FiringAtMost s.TRIG ∧ u.ZCF = false) (Q := State.FiringAtMost s.TRIG)
      (A := fun i => i ≠ .rst) (fun _ hu => hu.1) (fun _ ⟨⟨a, b⟩, c⟩ => ⟨⟨a, b⟩, c⟩)
      (fun u ⟨⟨a, b⟩, c⟩ => ⟨⟨by simpa using a, by simpa using b⟩, by simpa using c⟩)
      (fun _ _ ⟨hu, hz⟩ hc ht => hu.dispatch hz hc ht) (fun _ _ _ hu hi he => hu.1.own hi he)
      (fun _ _ _ hi => decodePort_not_rst hi)
      (fun w i hb hw hi e => hrst hb (by rw [hw, (decodeStim16_rst_iff w).mp (e ▸ hi)]))
      ⟨⟨hf, id⟩, hz⟩ h
  exact ⟨kept.firing, kept.output⟩

/-- Before the start no dispatch is enabled (R241). -/
theorem State.Inert.no_dispatch {s : State} (h : s.Inert) : s.canDispatch = false := by
  rw [canDispatch_eq, h.masked, Bool.false_and]

/-- Before the start ticks do nothing (R241). -/
theorem State.Inert.tickLoop {s : State} (h : s.Inert) (n : Nat) : tickLoop n s = .next s := by
  induction n with
  | zero => rfl
  | succ n ih =>
    rw [Machine.tickLoop, timerAgent_stopped s h.stopped, runAll_idle s h.no_dispatch, andThen_next, ih]

/-- Before the start the operations that serve no event write pending bits and output ports only, but for a reset, a start
and a command (R241). -/
theorem State.Inert.own {i : Instr} {s t : State} (h : s.Inert) (hcmd : ¬ i.IsCommand) (hrst : i ≠ .rst)
    (hstart : i ≠ .start) (he : OwnEffect i s t) : t = { s with ZCF := t.ZCF, OCF := t.OCF, ports := t.ports } := by
  cases he with
  | program n cc _ => exact absurd (.inl ⟨_, _, rfl⟩) hcmd
  | stop _ => exact absurd (.inr rfl) hcmd
  | reset _ => exact absurd rfl hrst
  | start _ _ => exact absurd rfl hstart
  | completed v _ hb => rw [h.not_converting] at hb; cases hb
  | _ => rfl

/-- The same of every operation but a handler: the loops do nothing (R241). -/
theorem State.Inert.exec {i : Instr} {s t : State} (h : s.Inert) (hcmd : ¬ i.IsCommand) (hrst : i ≠ .rst)
    (hstart : i ≠ .start) (hh : i ≠ .hZc ∧ i ≠ .hCm ∧ i ≠ .hCc) (hx : exec i s = .next t) :
    t = { s with ZCF := t.ZCF, OCF := t.OCF, ports := t.ports } := by
  obtain ⟨hz, hm, hc⟩ := hh
  by_cases hr : i = .run
  · subst hr
    cases hx.symm.trans (runAll_idle s h.no_dispatch)
    rfl
  · by_cases hn : ∃ n, i = .tick n
    · obtain ⟨n, rfl⟩ := hn
      cases hx.symm.trans (h.tickLoop n.toNat)
      rfl
    · exact h.own hcmd hrst hstart (ownEffect_of_exec hz hm hc hr (fun n e => hn ⟨n, e⟩) hx)

/-- Settles O51, by the parts of a step, on the state with its entry taken. -/
theorem inertBeforeStart : Obligations.InertBeforeStart := by
  intro s t hs hcmd hnot h
  have hs' : s.taken.Inert := ⟨hs.masked, hs.stopped, hs.not_converting⟩
  rcases step_taken_cases h with ⟨w, i, hw, hi, hx⟩ | ⟨hb, w, i, hw, hi, hx⟩ | ⟨-, -, hx⟩ | ⟨-, -, rfl⟩
  · have hstart : i ≠ .start := by rintro rfl; cases encode_of_decodePort hi
    exact hs'.exec (decodePort_not_command hcmd hw hi) (decodePort_not_rst hi) hstart (decodePort_not_handler w i hi) hx
  · obtain ⟨hnotRst, hnotStart⟩ := hnot hb
    have hrst : i ≠ .rst := by rintro rfl; exact hnotRst (by rw [hw, (decodeStim16_rst_iff w).mp hi])
    have hstart : i ≠ .start := by rintro rfl; exact hnotStart (by rw [hw, (decodeStim16_start_iff w).mp hi])
    exact hs'.exec (decodeStim16_not_command hi) hrst hstart (decodeStim16_not_handler w i hi) hx
  · cases hx.symm.trans (dispatchOne_disabled _ hs'.no_dispatch)
    rfl
  · rw [timerAgent_stopped _ hs'.stopped]
    rfl

end Sys2Proof.Machine
end

section
/-! The owners of the cells (10_state.md R20), and the priority of the zero-cross (60_exceptions.md R215, R216). -/

namespace Sys2Proof.Machine

/-- The cells and fields that no handler writes: who may have written each, `RST` apart (R20). -/
structure OuterOwners (i : Instr) (s t : State) : Prop where
  halted : t.HALTED ≠ s.HALTED → i = .start
  mask : t.GIE ≠ s.GIE → i = .start
  result : t.ADL ≠ s.ADL ∨ t.ADH ≠ s.ADH → ∃ v, i = .adc v
  counter : t.TCNT ≠ s.TCNT → ∃ n, i = .tick n
  refused : t.REFUSED = s.REFUSED
  draws : t.draws = s.draws
  schedule : t.schedule = s.schedule
  bench : t.bench = s.bench

/-- The other cells and fields, which an operation that is no loop writes in its own name: who may have written each, `RST`
apart (R20). -/
structure InnerOwners (i : Instr) (s t : State) : Prop where
  sample : t.AS ≠ s.AS → i = .hCc
  output : t.CST ≠ s.CST ∨ t.TRIG ≠ s.TRIG → i = .hZc ∨ i = .hCm
  target : t.OCR ≠ s.OCR ∨ t.TDS ≠ s.TDS → (∃ cs cc, i = .tprog cs cc) ∨ i = .hZc ∨ i = .hCm
  clock : t.CS ≠ s.CS ∨ t.OCIE ≠ s.OCIE → (∃ cs cc, i = .tprog cs cc) ∨ i = .tstop ∨ i = .hZc ∨ i = .hCm
  compareFlag : t.OCF ≠ s.OCF → (∃ cs cc, i = .tprog cs cc) ∨ i = .hZc ∨ i = .hCm ∨ i = .cm
  edgeFlag : t.ZCF ≠ s.ZCF → i = .zc
  resultFlag : t.ADIF ≠ s.ADIF → ∃ v, i = .adc v
  busy : t.ADBUSY ≠ s.ADBUSY → i = .start ∨ i = .hZc ∨ ∃ v, i = .adc v
  ports : t.ports ≠ s.ports → i.IsFunction

/-- An operation that serves no event writes the cells it owns. -/
theorem OwnEffect.owners {i : Instr} {s t : State} (he : OwnEffect i s t) (hi : i ≠ .rst) :
    OuterOwners i s t ∧ InnerOwners i s t := by
  cases he with
  | reset _ => exact absurd rfl hi
  | function _ p hf => exact ⟨by constructor <;> simp, by constructor <;> simp [hf]⟩
  | _ => exact ⟨by constructor <;> simp, by constructor <;> simp⟩

/-- `H_ZC` writes the cells it owns. -/
theorem zeroCrossNext_owners (c : TimerCommand) (s : State) :
    OuterOwners .hZc s (zeroCrossNext c s) ∧ InnerOwners .hZc s (zeroCrossNext c s) := by
  cases c <;> exact ⟨by constructor <;> simp [zeroCrossNext], by constructor <;> simp [zeroCrossNext]⟩

/-- `H_CM` writes the cells it owns. -/
theorem exec_hCm_owners {s t : State} (h : exec .hCm s = .next t) : OuterOwners .hCm s t ∧ InnerOwners .hCm s t := by
  cases hc : s.CST with
  | armed =>
    cases h.symm.trans (execHCm_armed s hc)
    exact ⟨by constructor <;> simp, by constructor <;> simp⟩
  | firing =>
    cases h.symm.trans (execHCm_firing s hc)
    exact ⟨by constructor <;> simp, by constructor <;> simp⟩

/-- `H_CC` writes the cell it owns. -/
theorem exec_hCc_owners {s t : State} (h : exec .hCc s = .next t) : OuterOwners .hCc s t ∧ InnerOwners .hCc s t := by
  cases h.symm.trans (execHCc_eq s)
  exact ⟨by constructor <;> simp, by constructor <;> simp⟩

/-- An operation that is no loop writes the cells it owns. -/
theorem exec_owners {i : Instr} {s t : State} (hrst : i ≠ .rst) (hr : i ≠ .run) (ht : ∀ n, i ≠ .tick n)
    (h : exec i s = .next t) : OuterOwners i s t ∧ InnerOwners i s t := by
  by_cases hz : i = .hZc
  · subst hz
    obtain ⟨c, -, e⟩ := execHZc_next s
    cases h.symm.trans e
    exact zeroCrossNext_owners c s
  · by_cases hm : i = .hCm
    · subst hm
      exact exec_hCm_owners h
    · by_cases hc : i = .hCc
      · subst hc
        exact exec_hCc_owners h
      · exact (ownEffect_of_exec hz hm hc hr ht h).owners hrst

/-- The cells and fields that neither a dispatch nor a tick writes, as in `s`. -/
structure SameOutside (s t : State) : Prop where
  halted : t.HALTED = s.HALTED
  mask : t.GIE = s.GIE
  low : t.ADL = s.ADL
  high : t.ADH = s.ADH
  refused : t.REFUSED = s.REFUSED
  draws : t.draws = s.draws
  schedule : t.schedule = s.schedule
  bench : t.bench = s.bench

/-- An enabled dispatch writes none of them: the mask is set again at its end (R218). The counter stays, too. -/
theorem SameOutside.dispatch {s u t : State} (h : SameOutside s u) (hc : u.canDispatch = true)
    (ht : dispatchOne u = .next t) : SameOutside s t ∧ t.TCNT = u.TCNT := by
  have hg : u.GIE = true := unmasked_of_canDispatch hc
  obtain ⟨halted, mask, low, high, refused, draws, schedule, bench⟩ := h
  have unmasked : true = s.GIE := hg.symm.trans mask
  rcases dispatchOne_effect u hc with ⟨-, c, -, e⟩ | ⟨-, -, -, -, e⟩ | ⟨-, -, -, -, e⟩ | ⟨-, -, -, e⟩ <;>
    cases ht.symm.trans e
  · cases c <;> exact ⟨⟨halted, unmasked, low, high, refused, draws, schedule, bench⟩, rfl⟩
  all_goals exact ⟨⟨halted, unmasked, low, high, refused, draws, schedule, bench⟩, rfl⟩

/-- A tick writes none of them (R195). -/
theorem SameOutside.tick {s u : State} (h : SameOutside s u) : SameOutside s (timerAgent u) := by
  obtain ⟨halted, mask, low, high, refused, draws, schedule, bench⟩ := h
  constructor <;> simpa

/-- What neither a dispatch nor a tick writes has the owners that it should, if the counter has. -/
theorem SameOutside.owners {i : Instr} {s t : State} (h : SameOutside s t) (hc : t.TCNT ≠ s.TCNT → ∃ n, i = .tick n) :
    OuterOwners i s t := by
  obtain ⟨halted, mask, low, high, refused, draws, schedule, bench⟩ := h
  exact ⟨absurd halted, absurd mask, fun h => h.elim (absurd low) (absurd high), hc, refused, draws, schedule, bench⟩

/-- `RUN` writes no cell that a handler does not write. -/
theorem runAll_owners {s t : State} (h : runAll s = .next t) : OuterOwners .run s t := by
  obtain ⟨same, counter⟩ := runAll_induct (fun u => SameOutside s u ∧ u.TCNT = s.TCNT)
    (fun _ _ ⟨hu, hn⟩ hc ht => ⟨(hu.dispatch hc ht).1, (hu.dispatch hc ht).2.trans hn⟩) s t
    ⟨⟨rfl, rfl, rfl, rfl, rfl, rfl, rfl, rfl⟩, rfl⟩ h
  exact same.owners (absurd counter)

/-- `TICK` writes the counter and otherwise no cell that a handler does not write. -/
theorem tickLoop_owners {n : BitVec 12} {s t : State} (h : tickLoop n.toNat s = .next t) :
    OuterOwners (.tick n) s t :=
  (tickLoop_induct (SameOutside s) (fun _ hu => hu.tick) (fun _ _ hu hc ht => (hu.dispatch hc ht).1) n.toNat s t
    ⟨rfl, rfl, rfl, rfl, rfl, rfl, rfl, rfl⟩ h).owners fun _ => ⟨n, rfl⟩

/-- The owners of the cells that no handler writes, for every operation. -/
theorem exec_outerOwners {i : Instr} {s t : State} (hrst : i ≠ .rst) (h : exec i s = .next t) : OuterOwners i s t := by
  by_cases hr : i = .run
  · subst hr
    exact runAll_owners h
  · by_cases hn : ∃ n, i = .tick n
    · obtain ⟨n, rfl⟩ := hn
      exact tickLoop_owners h
    · exact (exec_owners hrst hr (fun n e => hn ⟨n, e⟩) h).1

/-- Settles O49: the outer cells for every operation, the inner ones for those that are no loop. -/
theorem onlyOwnersWriteCells : Obligations.OnlyOwnersWriteCells := by
  intro i s t h hrst
  obtain ⟨halted, mask, result, counter, refused, draws, schedule, bench⟩ := exec_outerOwners hrst h
  refine ⟨halted, mask, result, counter, refused, draws, schedule, bench, fun hr ht => ?inner⟩
  case inner =>
    obtain ⟨sample, output, target, clock, compareFlag, edgeFlag, resultFlag, busy, ports⟩ := (exec_owners hrst hr ht h).2
    exact ⟨sample, output, target, clock, compareFlag, edgeFlag, resultFlag, busy, ports⟩

/-- After `H_ZC` no compare match is pending and enabled: a program discards it, a stop disables its interrupt (R216). -/
theorem zeroCrossNext_no_match (c : TimerCommand) (s : State) :
    ((zeroCrossNext c s).OCF && (zeroCrossNext c s).OCIE) = false := by
  cases c <;> simp [zeroCrossNext]

/-- `H_ZC` leaves Armed with the output off (R171). -/
theorem zeroCrossNext_armed_off (c : TimerCommand) (s : State) :
    (zeroCrossNext c s).TRIG = false ∧ (zeroCrossNext c s).CST = .armed := by
  cases c <;> exact ⟨rfl, rfl⟩

/-- `H_ZC` leaves the conversion's cells and the edge's flag alone (R20). -/
theorem zeroCrossNext_keeps (c : TimerCommand) (s : State) :
    (zeroCrossNext c s).ZCF = s.ZCF ∧ (zeroCrossNext c s).ADIF = s.ADIF ∧ (zeroCrossNext c s).ADL = s.ADL ∧
    (zeroCrossNext c s).ADH = s.ADH := by
  cases c <;> exact ⟨rfl, rfl, rfl, rfl⟩

/-- `RUN` with handlers unmasked and neither an edge nor a match to serve latches a pending conversion, and no more
(R198). -/
theorem runAll_latch {s : State} (hg : s.GIE = true) (hz : s.ZCF = false) (hm : (s.OCF && s.OCIE) = false) :
    runAll s = .next (if s.ADIF then { s with ADIF := false, AS := s.ADH ++ s.ADL } else s) := by
  cases ha : s.ADIF with
  | false => exact runAll_idle s (by rw [canDispatch_eq, hz, hm, ha]; simp)
  | true =>
    have hc : s.canDispatch = true := by rw [canDispatch_eq, hg, ha]; simp
    have hev : s.pendingEvent = some .conversionComplete := by rw [pendingEvent_eq, hz, hm, ha]; rfl
    have hlatched : ({ s with AS := s.ADH ++ s.ADL, ADIF := false, GIE := true } : State).canDispatch = false := by
      rw [canDispatch_eq]
      simp [hz, hm]
    rw [runAll_unfold s hc, dispatchOne_serves s _ hg hev, serveEvent_conversionComplete, andThen_next,
      runAll_idle _ hlatched, hg]
    rfl

/-- `RUN` at a pending unmasked zero-cross is `H_ZC`, with its trap entry and trap return, and `RUN` again (R198, R215). -/
theorem runAll_zeroCross {s z : State} (hg : s.GIE = true) (hz : s.ZCF = true)
    (hx : exec .hZc { s with ZCF := false, GIE := false } = .next z) : runAll s = runAll { z with GIE := true } := by
  rw [runAll_unfold s (canDispatch_of_edge hg hz), dispatchOne_serves s _ hg (pendingEvent_of_edge hz), serveEvent_eq_exec, handlerOf, trapEntry_zeroCross, hx]
  rfl

/-- Settles O48: the zero-cross goes first, its handler leaves no match to serve, and the rest of `RUN` is the latch. -/
theorem zeroCrossWinsTies : Obligations.ZeroCrossWinsTies := by
  intro s hg hz
  obtain ⟨c, -, hx⟩ := execHZc_next { s with ZCF := false, GIE := false }
  obtain ⟨off, armed⟩ := zeroCrossNext_armed_off c { s with ZCF := false, GIE := false }
  obtain ⟨kz, ka, kl, kh⟩ := zeroCrossNext_keeps c { s with ZCF := false, GIE := false }
  have noMatch := zeroCrossNext_no_match c { s with ZCF := false, GIE := false }
  generalize zeroCrossNext c { s with ZCF := false, GIE := false } = z at *
  refine ⟨z, hx, off, armed, ?_⟩
  rw [exec, execRun, runAll_zeroCross hg hz hx, runAll_latch (s := { z with GIE := true }) rfl kz noMatch]
  simp only [ka, kl, kh]

end Sys2Proof.Machine
end

section
/-! Entries that are no dispatch, and fairness: in the assembled block the commands run inside handlers only, and a dispatch
that stays enabled is taken (46_environment_ops.md R190, R200). -/

namespace Sys2Proof.Machine

/-- A stimulus that is no point of dispatch is neither `RUN` nor a `TICK` of a round (R196, R198). -/
theorem dispatches_stim_eq_false {w : Stim16} {i : Instr} (hi : decodeStim16 w = .ok i)
    (hq : dispatches (.stim w) = false) : i ≠ .run ∧ ∀ n, i = .tick n → n = 0#12 := by
  simp only [dispatches, hi] at hq
  constructor
  · rintro rfl
    cases hq
  · rintro n rfl
    simpa using hq

/-- What an entry that is no point of dispatch and no reset can do: nothing, a tick, a start, or an event of the environment
(R191 to R195). -/
theorem quietEntry_cases {e : Entry} {s t : State} (hq : dispatches e = false) (hrst : e ≠ .stim 0x0000#16)
    (h : runEntry e s = .next t) :
    t = s ∨ t = timerAgent s ∨ t = { s with ADBUSY := true, GIE := true, HALTED := false } ∨
    t = { s with ZCF := true } ∨ (∃ v, t = completeConversion v s) ∨ t = { s with OCF := true } := by
  rcases runEntry_cases e s t h with ⟨w, i, rfl, hi, hx⟩ | ⟨rfl, -⟩ | ⟨-, ht⟩
  · obtain ⟨hrun, htick⟩ := dispatches_stim_eq_false hi hq
    rcases decodeStim16_is_stimulus w i hi with rfl | rfl | rfl | ⟨v, rfl⟩ | ⟨n, rfl⟩ | rfl | rfl
    · exact absurd (congrArg Entry.stim ((decodeStim16_rst_iff w).mp hi)) hrst
    · cases hh : s.HALTED with
      | true => cases hx.symm.trans (exec_start_halted hh); simp
      | false => cases hx.symm.trans (exec_start_started hh); simp
    · cases hx; simp
    · cases hb : s.ADBUSY with
      | true => cases hx.symm.trans (execAdc_busy v hb); exact .inr (.inr (.inr (.inr (.inl ⟨v, rfl⟩))))
      | false => cases hx.symm.trans (execAdc_idle v hb); simp
    · obtain rfl := htick n rfl
      cases hx
      simp
    · cases hx; simp
    · exact absurd rfl hrun
  · cases hq
  · exact .inr (.inl ht)

/-- The Timer Driver's cells are the same. -/
structure SameDriver (s t : State) : Prop where
  enable : t.OCIE = s.OCIE
  clock : t.CS = s.CS
  target : t.OCR = s.OCR
  sequencer : t.TDS = s.TDS

/-- An entry that is no point of dispatch and no reset leaves the Timer Driver's cells alone (R190). -/
theorem SameDriver.quietEntry {e : Entry} {s t : State} (hq : dispatches e = false) (hrst : e ≠ .stim 0x0000#16)
    (h : runEntry e s = .next t) : SameDriver s t := by
  rcases quietEntry_cases hq hrst h with rfl | rfl | rfl | rfl | ⟨v, rfl⟩ | rfl
  · exact ⟨rfl, rfl, rfl, rfl⟩
  · constructor <;> simp
  all_goals exact ⟨rfl, rfl, rfl, rfl⟩

/-- With handlers masked no step of the assembled block but a reset touches the Timer Driver's cells. -/
theorem SameDriver.masked {s t : State} (hb : s.bench = []) (hrst : s.schedule.head? ≠ some (.stim 0x0000#16))
    (hg : s.GIE = false) (h : step s = .next t) : SameDriver s t := by
  refine step_leads (P := fun u => u.GIE = false ∧ SameDriver s u) (Q := SameDriver s)
    (A := fun i => i ≠ .rst ∧ ¬ i.IsCommand) (fun _ hu => hu.2) ?taken ?tick ?dispatch ?own ?port ?stim
    ⟨hg, ⟨rfl, rfl, rfl, rfl⟩⟩ h
  case taken => exact fun u ⟨hm, a, b, c, d⟩ => ⟨hm, a, b, c, d⟩
  case tick =>
    rintro u ⟨hm, a, b, c, d⟩
    refine ⟨by simpa using hm, ?_⟩
    constructor <;> simpa
  case dispatch =>
    rintro u v ⟨hm, -⟩ hc -
    rw [canDispatch_eq, hm] at hc
    cases hc
  case own =>
    rintro i u v ⟨-, a, b, c, d⟩ ⟨hnr, hnc⟩ he
    cases he with
    | program n cc _ => exact absurd (.inl ⟨_, _, rfl⟩) hnc
    | stop _ => exact absurd (.inr rfl) hnc
    | reset _ => exact absurd rfl hnr
    | _ => exact ⟨a, b, c, d⟩
  case port =>
    intro w i hw
    rw [hb] at hw
    cases hw
  case stim =>
    intro w i _ hw hi
    refine ⟨?_, decodeStim16_not_command hi⟩
    rintro rfl
    exact hrst (by rw [hw, (decodeStim16_rst_iff w).mp hi])

/-- A step of the assembled block writes no output port (log 1). -/
theorem step_keeps_ports {s t : State} (hb : s.bench = []) (h : step s = .next t) : t.ports = s.ports := by
  rcases step_taken_cases h with ⟨w, i, hw, -⟩ | ⟨-, w, i, -, hi, hx⟩ | ⟨-, -, hx⟩ | ⟨-, -, rfl⟩
  · rw [hb] at hw; cases hw
  · exact (stimulus_keeps_queues w i _ t hi hx).2.2
  · exact (dispatchOne_keeps_queues _ t hx).2.2
  · simp [State.taken]

/-- Settles O15: with handlers masked, or at an entry that is no point of dispatch, the Timer Driver's cells stay. -/
theorem functionsAndCommandsRunOnlyInHandlers : Obligations.FunctionsAndCommandsRunOnlyInHandlers := by
  intro s t hb h
  refine ⟨(step_takes_entry s t hb h).2, step_keeps_ports hb h, fun hrst hchanged => ?changed⟩
  case changed =>
    have changed : ¬ SameDriver s t := by
      rintro ⟨a, b, c, d⟩
      simp [a, b, c, d] at hchanged
    constructor
    · by_contra hg
      exact changed (SameDriver.masked hb hrst (Bool.eq_false_iff.mpr hg) h)
    · intro e he
      by_contra hq
      obtain ⟨rest, hs⟩ := List.head?_eq_some_iff.mp he
      rw [step_entry s e rest hb hs] at h
      have hne : e ≠ .stim 0x0000#16 := fun hx => hrst (hx ▸ he)
      obtain ⟨a, b, c, d⟩ := SameDriver.quietEntry (Bool.eq_false_iff.mpr hq) hne h
      exact changed ⟨a, b, c, d⟩

/-- On a weakly fair run without reset, a property that makes a dispatch enabled, and that every entry but a dispatch keeps,
lasts until the first dispatch, which comes (R200). -/
theorem fair_first_dispatch {P : State → Prop} {steps : Nat → Entry} {states : Nat → State} (hrun : OpenRun steps states)
    (hfair : WeaklyFair steps states) (hrst : ∀ n, steps n ≠ .stim 0x0000#16) (hP : ∀ s, P s → s.canDispatch = true)
    (hkeep : ∀ e s t, dispatches e = false → e ≠ .stim 0x0000#16 → runEntry e s = .next t → P s → P t) {n : Nat}
    (hn : P (states n)) :
    ∃ m, n ≤ m ∧ dispatches (steps m) = true ∧ (∀ k, n ≤ k → k < m → dispatches (steps k) = false) ∧ P (states m) := by
  have lasts : ∀ m, n ≤ m → (∀ k, n ≤ k → k < m → dispatches (steps k) = false) → P (states m) := by
    intro m hm
    induction m, hm using Nat.le_induction with
    | base => exact fun _ => hn
    | succ m hm ih =>
      intro hquiet
      exact hkeep _ _ _ (hquiet m hm (Nat.lt_succ_self m)) (hrst m) (hrun m)
        (ih fun k hk hkm => hquiet k hk (Nat.lt_succ_of_lt hkm))
  have comes : ∃ m, n ≤ m ∧ dispatches (steps m) = true := by
    by_contra hnone
    have quiet : ∀ k, n ≤ k → dispatches (steps k) = false := fun k hk =>
      Bool.eq_false_iff.mpr fun h => hnone ⟨k, hk, h⟩
    exact hnone (hfair n fun m hm => hP _ (lasts m hm fun k hk _ => quiet k hk))
  obtain ⟨hle, hdisp⟩ := Nat.find_spec comes
  have first : ∀ k, n ≤ k → k < Nat.find comes → dispatches (steps k) = false := fun k hk hlt =>
    Bool.eq_false_iff.mpr fun h => Nat.find_min comes hlt ⟨hk, h⟩
  exact ⟨Nat.find comes, hle, hdisp, first, lasts _ hle first⟩

/-- An entry that is no dispatch and no reset keeps a dispatch enabled: it sets flags and the mask, and clears none. -/
theorem quietEntry_keeps_canDispatch {e : Entry} {s t : State} (hq : dispatches e = false)
    (hrst : e ≠ .stim 0x0000#16) (h : runEntry e s = .next t) (hc : s.canDispatch = true) : t.canDispatch = true := by
  simp only [canDispatch_eq, Bool.and_eq_true, Bool.or_eq_true] at hc ⊢
  obtain ⟨hg, hp⟩ := hc
  rcases quietEntry_cases hq hrst h with rfl | rfl | rfl | rfl | ⟨v, rfl⟩ | rfl
  · exact ⟨hg, hp⟩
  · refine ⟨by simpa using hg, hp.imp (Or.imp (by simp) fun ⟨ho, hi⟩ => ⟨?_, by simpa using hi⟩) (by simp)⟩
    unfold timerAgent
    split <;> simp [ho]
  · exact ⟨rfl, hp⟩
  · exact ⟨hg, .inl (.inl rfl)⟩
  · exact ⟨hg, .inr rfl⟩
  · exact ⟨hg, hp.imp (Or.imp id fun ⟨_, hi⟩ => ⟨rfl, hi⟩) id⟩

/-- Settles O14, by the first dispatch after the moment at which one is enabled. -/
theorem fairDispatcherServesPendingEvent : Obligations.FairDispatcherServesPendingEvent := by
  intro steps states hrun hfair hrst n hn
  obtain ⟨m, hm, hd, -, hc⟩ := fair_first_dispatch hrun hfair hrst (P := fun s => s.canDispatch = true) (fun _ h => h)
    (fun _ _ _ hq hr h hc => quietEntry_keeps_canDispatch hq hr h hc) hn
  exact ⟨m, hm, hc, hd⟩

/-- An entry that is no dispatch and no reset keeps a zero-cross pending and unmasked. -/
theorem quietEntry_keeps_zeroCross {e : Entry} {s t : State} (hq : dispatches e = false) (hrst : e ≠ .stim 0x0000#16)
    (h : runEntry e s = .next t) (hs : s.GIE = true ∧ s.ZCF = true) : t.GIE = true ∧ t.ZCF = true := by
  obtain ⟨hg, hz⟩ := hs
  rcases quietEntry_cases hq hrst h with rfl | rfl | rfl | rfl | ⟨v, rfl⟩ | rfl
  · exact ⟨hg, hz⟩
  · simpa using And.intro hg hz
  · exact ⟨rfl, hz⟩
  · exact ⟨hg, rfl⟩
  all_goals exact ⟨hg, hz⟩

/-- A dispatch serves a pending unmasked zero-cross first (R215). -/
theorem dispatchOne_clears_zeroCross {s t : State} (hg : s.GIE = true) (hz : s.ZCF = true)
    (h : dispatchOne s = .next t) : t.ZCF = false := by
  obtain ⟨c, -, hs⟩ := serveEvent_zeroCross s
  cases h.symm.trans ((dispatchOne_serves s _ hg (pendingEvent_of_edge hz)).trans hs)
  rfl

/-- `RUN` with handlers unmasked leaves no zero-cross pending (R198). -/
theorem runAll_clears_zeroCross {s t : State} (hg : s.GIE = true) (h : runAll s = .next t) : t.ZCF = false :=
  (nothing_pending (runAll_GIE hg h) (runAll_quiet h)).1

/-- No dispatch sets a zero-cross (R198: "no handler sets one"). -/
theorem dispatchOne_keeps_no_zeroCross {s t : State} (hz : s.ZCF = false) (hc : s.canDispatch = true)
    (h : dispatchOne s = .next t) : t.ZCF = false := by
  rcases dispatchOne_effect s hc with ⟨hz', -⟩ | ⟨-, -, -, -, e⟩ | ⟨-, -, -, -, e⟩ | ⟨-, -, -, e⟩
  · rw [hz] at hz'; cases hz'
  all_goals
    cases h.symm.trans e
    exact hz

/-- `TICK` of at least one round with handlers unmasked leaves no zero-cross pending: its first `RUN` serves it, and nothing
in it sets one (R196). -/
theorem tickLoop_clears_zeroCross {n : Nat} {s t : State} (hg : s.GIE = true) (h : tickLoop (n + 1) s = .next t) :
    t.ZCF = false := by
  obtain ⟨u, hu, -⟩ := runAll_next (timerAgent s)
  rw [tickLoop, hu, andThen_next] at h
  have hz : u.ZCF = false := runAll_clears_zeroCross (by simpa using hg) hu
  exact tickLoop_induct (fun v => v.ZCF = false) (fun v hv => by simpa using hv)
    (fun _ _ hv hc hd => dispatchOne_keeps_no_zeroCross hv hc hd) n u t hz h

/-- At a point of dispatch a pending unmasked zero-cross is served (R200, R215). -/
theorem dispatches_clears_zeroCross {e : Entry} {s t : State} (hd : dispatches e = true) (hg : s.GIE = true)
    (hz : s.ZCF = true) (h : runEntry e s = .next t) : t.ZCF = false := by
  rcases runEntry_cases e s t h with ⟨w, i, rfl, hi, hx⟩ | ⟨-, hx⟩ | ⟨rfl, -⟩
  · simp only [dispatches, hi] at hd
    split at hd
    next heq =>
      cases heq
      exact runAll_clears_zeroCross hg hx
    next n heq =>
      cases heq
      have hn : n.toNat ≠ 0 := fun h0 => bne_iff_ne.mp hd (BitVec.eq_of_toNat_eq h0)
      obtain ⟨k, hk⟩ := Nat.exists_eq_succ_of_ne_zero hn
      simp only [exec, execTick, hk] at hx
      exact tickLoop_clears_zeroCross hg hx
    next => cases hd
  · exact dispatchOne_clears_zeroCross hg hz hx
  · cases hd

/-- Settles O57, by the first dispatch after the moment at which the zero-cross is pending and unmasked. -/
theorem fairDispatcherServesZeroCross : Obligations.FairDispatcherServesZeroCross := by
  intro steps states hrun hfair hrst n hg hz
  obtain ⟨m, hm, hd, hfirst, hgm, hzm⟩ := fair_first_dispatch hrun hfair hrst
    (P := fun s => s.GIE = true ∧ s.ZCF = true) (fun s ⟨hg, hz⟩ => canDispatch_of_edge hg hz)
    (fun _ _ _ hq hr h hs => quietEntry_keeps_zeroCross hq hr h hs) ⟨hg, hz⟩
  exact ⟨m, hm, hd, hfirst, hgm, pendingEvent_of_edge hzm, dispatches_clears_zeroCross hd hgm hzm (hrun m)⟩

end Sys2Proof.Machine
end

section
/-! The half-cycle (44_cycle_sequencer.md R176): a zero-cross with power arms a program, its match fires the pulse, and the
pulse program's match ends it. -/

namespace Sys2Proof.Machine

/-- `TICK` by its number of rounds. -/
theorem exec_tick_ofNat {k : Nat} (hk : k < 4096) (s : State) : exec (.tick (BitVec.ofNat 12 k)) s = tickLoop k s := by
  rw [exec, execTick, BitVec.toNat_ofNat, Nat.mod_eq_of_lt hk]

/-- While a program counts, nothing is there to dispatch (R199). -/
theorem State.Counting.quiet {s : State} {c : Byte} (h : s.Counting c) : s.canDispatch = false := by
  rw [canDispatch_eq, h.no_edge, h.no_match, h.no_result]
  simp

/-- Up to its match a program leaves the output as it is (R176). -/
theorem exec_tick_counting {s : State} {c : Byte} (h : s.Counting c) {k : Nat} (hk : k ≤ c.toNat) :
    ∃ t, exec (.tick (BitVec.ofNat 12 k)) s = .next t ∧ t.TRIG = s.TRIG := by
  obtain ⟨a, t, rfl, ht, -⟩ := tickLoop_counting k s c h hk
  have hc := c.isLt
  exact ⟨{ s with TCNT := a }, by rw [exec_tick_ofNat (by omega), ht], rfl⟩

/-- The tick at the match is the counting's end and `H_CM`, after which the rest of `RUN` finds nothing (R150, R196). -/
theorem exec_tick_match {s t : State} {c : Byte} (h : s.Counting c)
    (hx : exec .hCm { s with TCNT := s.TCNT + c + 1#8, GIE := false } = .next t)
    (hq : (trapReturn t).canDispatch = false) :
    exec (.tick (BitVec.ofNat 12 (c.toNat + 1))) s = .next (trapReturn t) := by
  have hc := c.isLt
  have hx' : runHandler .timerCompare { s with TCNT := s.TCNT + c + 1#8, GIE := false } = .next t := hx
  rw [exec_tick_ofNat (by omega), tickLoop_match s c h, hx', andThen_next, runAll_idle _ hq]

/-- The match in Armed fires the pulse: the output is on, and the pulse program counts from 149 (R132, R161). -/
theorem exec_tick_fires {s : State} {c : Byte} (h : s.Counting c) (ha : s.CST = .armed) :
    ∃ u, exec (.tick (BitVec.ofNat 12 (c.toNat + 1))) s = .next u ∧ u.TRIG = true ∧ u.CST = .firing ∧
      u.Counting 149#8 := by
  have hx := execHCm_armed { s with TCNT := s.TCNT + c + 1#8, GIE := false } ha
  have counting : State.Counting (trapReturn { s with
      TCNT := s.TCNT + c + 1#8, GIE := false, TRIG := true, OCIE := true, CS := .div8, OCF := false
      OCR := s.TCNT + c + 1#8 + 149#8, TDS := .idle, CST := .firing }) 149#8 :=
    ⟨by simp, rfl, rfl, h.no_edge, h.no_result, rfl, rfl⟩
  exact ⟨_, exec_tick_match h hx counting.quiet, rfl, rfl, counting⟩

/-- The match in Firing ends the pulse (R161). -/
theorem exec_tick_ends {s : State} {c : Byte} (h : s.Counting c) (hf : s.CST = .firing) :
    ∃ v, exec (.tick (BitVec.ofNat 12 (c.toNat + 1))) s = .next v ∧ v.TRIG = false ∧ v.CST = .firing := by
  have hx := execHCm_firing { s with TCNT := s.TCNT + c + 1#8, GIE := false } hf
  refine ⟨_, exec_tick_match h hx ?_, rfl, hf⟩
  rw [canDispatch_eq]
  simp [h.no_edge, h.no_match, h.no_result]

/-- A sample with power has a program (R123, R127). -/
theorem calcPort_mapPort_program {x : Sample} (h : mapPort x ≠ 0#7) :
    ∃ tp, calcPort (mapPort x) = some (.program tp) := by
  obtain ⟨c, hc⟩ := calcPort_mapPort x
  cases c with
  | stop => exact absurd (BitVec.eq_of_toNat_eq ((calcPort_eq_stop_iff hc).mp rfl)) h
  | program tp => exact ⟨tp, hc⟩

/-- A zero-cross with power, and no conversion pending, leaves Armed, off, with its program counting (R171, R173). -/
theorem exec_run_arms {s : State} {tp : TimerProgram} (hg : s.GIE = true) (hz : s.ZCF = true) (ha : s.ADIF = false)
    (hc : calcPort (mapPort s.AS) = some (.program tp)) :
    ∃ z, exec .run s = .next z ∧ z.TRIG = false ∧ z.CST = .armed ∧ z.Counting tp.count := by
  have hx : exec .hZc { s with ZCF := false, GIE := false } =
      .next (zeroCrossNext (.program tp) { s with ZCF := false, GIE := false }) := exec_hZc hc
  have counting : State.Counting { zeroCrossNext (.program tp) { s with ZCF := false, GIE := false } with GIE := true }
      tp.count := ⟨clockOf_ne_stopped tp.prescaler, rfl, rfl, rfl, ha, rfl, rfl⟩
  refine ⟨_, ?_, rfl, rfl, counting⟩
  rw [exec, execRun, runAll_zeroCross hg hz hx, runAll_idle _ counting.quiet]

/-- Settles O56: the zero-cross arms, the program's match fires, the pulse program's match ends. -/
theorem halfCycleFiresOnePulse : Obligations.HalfCycleFiresOnePulse := by
  intro s hg hz ha hpower
  obtain ⟨tp, hc⟩ := calcPort_mapPort_program hpower
  obtain ⟨z, hrun, zOff, zArmed, zCounting⟩ := exec_run_arms hg hz ha hc
  obtain ⟨u, hu, uOn, uFiring, uCounting⟩ := exec_tick_fires zCounting zArmed
  obtain ⟨v, hv, vOff, vFiring⟩ := exec_tick_ends uCounting uFiring
  refine ⟨tp, z, u, v, hc, hrun, fun k hk => ?off, hu, uOn, uFiring, fun k hk => ?on, hv, vOff, vFiring⟩
  case off =>
    obtain ⟨t, ht, same⟩ := exec_tick_counting zCounting hk
    exact ⟨t, ht, same.trans zOff⟩
  case on =>
    obtain ⟨t, ht, same⟩ := exec_tick_counting uCounting (c := 149#8) hk
    exact ⟨t, ht, same.trans uOn⟩

end Sys2Proof.Machine
end

section
/-! The timer's origin (10_state.md R26; 42_timer_driver.md R146, R150): states that differ in it only answer alike. -/

namespace Sys2Proof.Machine

/-- Two answers that an observer of everything but the timer's origin cannot tell apart. -/
inductive Alike : Result → Result → Prop
  | next {s t : State} (h : s.SameButTimerOrigin t) : Alike (.next s) (.next t)
  | refused (r r' : Refusal) : Alike (.refused r) (.refused r')

/-- An operation whose answers do not depend on the timer's origin. -/
def OriginFree (f : State → Result) : Prop := ∀ s t : State, s.SameButTimerOrigin t → Alike (f s) (f t)

/-- The other state is the first with a counter and a compare register of its own. -/
theorem State.SameButTimerOrigin.exists_eq {s t : State} (h : s.SameButTimerOrigin t) :
    ∃ a b, t = { s with TCNT := a, OCR := b } ∧ (s.clockRuns = true → s.OCR - s.TCNT = b - a) :=
  ⟨t.TCNT, t.OCR, congrArg (fun u : State => { u with TCNT := t.TCNT, OCR := t.OCR }) h.cells, h.distance⟩

/-- To answer alike it is enough to do so after the counter and the compare register are moved together. -/
theorem originFree_of_moved {f : State → Result}
    (hf : ∀ (s : State) (a b : Byte), (s.clockRuns = true → s.OCR - s.TCNT = b - a) →
      Alike (f s) (f { s with TCNT := a, OCR := b })) : OriginFree f := by
  intro s t h
  obtain ⟨a, b, rfl, hd⟩ := h.exists_eq
  exact hf s a b hd

/-- Going on alike from alike answers. -/
theorem Alike.andThen {r r' : Result} {f : State → Result} (h : Alike r r') (hf : OriginFree f) :
    Alike (andThen r f) (andThen r' f) := by
  cases h with
  | next hs => exact hf _ _ hs
  | refused e e' => exact .refused e e'

/-- Two targets set the same count ahead lie equally far, whatever the counters read (R144). -/
theorem distance_eq_count (a b cc : Byte) : a + cc - a = b + cc - b := by
  rw [add_sub_cancel_left, add_sub_cancel_left]

/-- A program is relative to the counter: its distance to the match is its count (R144). -/
theorem State.SameButTimerOrigin.program {s t : State} (h : s.SameButTimerOrigin t) (n : Prescaler) (cc : Byte) :
    (timerProgram n cc s).SameButTimerOrigin (timerProgram n cc t) := by
  obtain ⟨a, b, rfl, -⟩ := h.exists_eq
  simp only [timerProgram_eq]
  exact ⟨rfl, fun _ => distance_eq_count _ _ _⟩

/-- Whether the clock runs is no matter of the origin. -/
theorem State.SameButTimerOrigin.clockRuns {s t : State} (h : s.SameButTimerOrigin t) :
    t.clockRuns = s.clockRuns := by
  obtain ⟨a, b, rfl, -⟩ := h.exists_eq
  rfl

/-- While the clock runs, the counter of one state is at its match where the other's is (R195). -/
theorem State.SameButTimerOrigin.atMatch {s t : State} (h : s.SameButTimerOrigin t) (hrun : s.clockRuns = true) :
    t.atMatch = s.atMatch := by
  rw [State.atMatch, State.atMatch, Bool.eq_iff_iff, beq_iff_eq, beq_iff_eq, eq_comm, ← sub_eq_zero,
    ← h.distance hrun, sub_eq_zero, eq_comm]

/-- A tick moves both counters by one, and finds the match in both or in neither (R195). -/
theorem State.SameButTimerOrigin.tick {s t : State} (h : s.SameButTimerOrigin t) :
    (timerAgent s).SameButTimerOrigin (timerAgent t) := by
  cases hrun : s.clockRuns with
  | false => rwa [timerAgent, timerAgent, h.clockRuns, hrun]
  | true =>
    have hmatch := h.atMatch hrun
    rw [timerAgent, timerAgent, h.clockRuns, hrun, if_pos rfl, if_pos rfl, timerTick, timerTick, hmatch]
    obtain ⟨a, b, rfl, hd⟩ := h.exists_eq
    exact ⟨rfl, fun _ => by rw [← sub_sub, hd hrun, sub_sub]⟩

/-- Which dispatch is enabled is no matter of the origin. -/
theorem State.SameButTimerOrigin.canDispatch {s t : State} (h : s.SameButTimerOrigin t) :
    t.canDispatch = s.canDispatch := by
  obtain ⟨a, b, rfl, -⟩ := h.exists_eq
  rfl

/-- `H_ZC` is free of the origin: its command is the sample's, a stop halts the clock, and a program is relative (R171). -/
theorem originFree_execHZc : OriginFree execHZc := originFree_of_moved fun s a b _ => by
  obtain ⟨c, hc, hs⟩ := execHZc_next s
  have ht : execHZc { s with TCNT := a, OCR := b } = .next (zeroCrossNext c { s with TCNT := a, OCR := b }) := exec_hZc hc
  rw [hs, ht]
  cases c with
  | stop => exact .next ⟨rfl, nofun⟩
  | program tp => exact .next ⟨rfl, fun _ => distance_eq_count _ _ _⟩

/-- The controller has two states (R22). -/
theorem armed_or_firing (s : State) : s.CST = .armed ∨ s.CST = .firing := by
  cases s.CST <;> simp

/-- `H_CM` is free of the origin (R161). -/
theorem originFree_execHCm : OriginFree execHCm := originFree_of_moved fun s a b hd => by
  rcases armed_or_firing s with hc | hc
  · rw [execHCm_armed s hc, execHCm_armed { s with TCNT := a, OCR := b } hc]
    exact .next ⟨rfl, fun _ => distance_eq_count _ _ _⟩
  · rw [execHCm_firing s hc, execHCm_firing { s with TCNT := a, OCR := b } hc]
    exact .next ⟨rfl, hd⟩

/-- Serving an event is free of the origin (R199). -/
theorem originFree_serveEvent (ev : Event) : OriginFree (serveEvent ev) := by
  have body : OriginFree (runHandler ev) := by
    cases ev with
    | zeroCross => exact originFree_execHZc
    | timerCompare => exact originFree_execHCm
    | conversionComplete => exact originFree_of_moved fun _ _ _ hd => .next ⟨rfl, hd⟩
  have entered : ∀ {s t : State}, s.SameButTimerOrigin t → (trapEntry ev s).SameButTimerOrigin (trapEntry ev t) := by
    intro s t h
    obtain ⟨a, b, rfl, hd⟩ := h.exists_eq
    cases ev <;> exact ⟨rfl, hd⟩
  intro s t h
  exact (body _ _ (entered h)).andThen (originFree_of_moved fun _ _ _ hd => .next ⟨rfl, hd⟩)

/-- A dispatch is free of the origin (R199). -/
theorem originFree_dispatchOne : OriginFree dispatchOne := by
  intro s t h
  have hc := h.canDispatch
  cases hs : s.canDispatch with
  | false =>
    rw [dispatchOne_disabled s hs, dispatchOne_disabled t (hc.trans hs)]
    exact .next h
  | true =>
    obtain ⟨ev, -, hev, -, -⟩ := dispatchOne_cases s hs
    have hg : s.GIE = true := unmasked_of_canDispatch hs
    have hboth : t.GIE = true ∧ t.pendingEvent = some ev := by
      obtain ⟨a, b, rfl, -⟩ := h.exists_eq
      exact ⟨hg, hev⟩
    rw [dispatchOne_serves s ev hg hev, dispatchOne_serves t ev hboth.1 hboth.2]
    exact originFree_serveEvent ev s t h

/-- `RUN` is free of the origin (R198). -/
theorem originFree_dispatchLoop (k : Nat) : OriginFree (dispatchLoop k) := by
  induction k with
  | zero => exact fun _ _ h => .next h
  | succ k ih =>
    intro s t h
    simp only [dispatchLoop, h.canDispatch]
    split
    · exact (originFree_dispatchOne s t h).andThen ih
    · exact .next h

/-- `TICK` is free of the origin (R196). -/
theorem originFree_tickLoop (n : Nat) : OriginFree (tickLoop n) := by
  induction n with
  | zero => exact fun _ _ h => .next h
  | succ n ih => exact fun _ _ h => (originFree_dispatchLoop 3 _ _ h.tick).andThen ih

/-- `TPROG` is free of the origin, refused or not (R144, R147). -/
theorem originFree_programFields (cs : BitVec 3) (cc : Byte) : OriginFree (programFields cs cc) := by
  intro s t h
  unfold programFields
  cases presc cs with
  | none => exact .refused _ _
  | some n => exact .next (h.program n cc)

/-- Every operation is free of the origin (R26, R146, R150). -/
theorem originFree_exec (i : Instr) : OriginFree (exec i) := by
  cases i with
  | map x => exact originFree_of_moved fun _ _ _ hd => .next ⟨rfl, hd⟩
  | d2p d => exact originFree_of_moved fun _ _ _ hd => .next ⟨rfl, hd⟩
  | p2d p =>
    refine originFree_of_moved fun s a b hd => ?_
    simp only [exec, execP2d]
    split
    · exact .next ⟨rfl, hd⟩
    · exact .refused _ _
  | calcWord p =>
    refine originFree_of_moved fun s a b hd => ?_
    simp only [exec, execCalc]
    split
    · exact .next ⟨rfl, hd⟩
    · exact .refused _ _
  | tprog cs cc => exact originFree_programFields cs cc
  | tstop => exact originFree_of_moved fun _ _ _ _ => .next ⟨rfl, fun h => by cases h⟩
  | hZc => exact originFree_execHZc
  | hCm => exact originFree_execHCm
  | hCc => exact originFree_of_moved fun _ _ _ hd => .next ⟨rfl, hd⟩
  | rst => exact originFree_of_moved fun _ _ _ _ => .next ⟨rfl, fun _ => rfl⟩
  | start =>
    refine originFree_of_moved fun s a b hd => ?_
    simp only [exec, execStart]
    split <;> exact .next ⟨rfl, hd⟩
  | zc => exact originFree_of_moved fun _ _ _ hd => .next ⟨rfl, hd⟩
  | adc v =>
    refine originFree_of_moved fun s a b hd => ?_
    simp only [exec, execAdc]
    split <;> exact .next ⟨rfl, hd⟩
  | tick n => exact originFree_tickLoop n.toNat
  | cm => exact originFree_of_moved fun _ _ _ hd => .next ⟨rfl, hd⟩
  | run => exact originFree_dispatchLoop 3

/-- Running what a decoder answered is free of the origin (R85, R88). -/
theorem originFree_runDecoded (r : Except DecodeError Instr) : OriginFree (runDecoded r) := by
  cases r with
  | ok i => exact originFree_exec i
  | error e =>
    cases e with
    | nothingPending => exact fun _ _ h => .next h
    | _ => exact fun _ _ _ => .refused _ _

/-- An entry is free of the origin (R190). -/
theorem originFree_runEntry (e : Entry) : OriginFree (runEntry e) := by
  cases e with
  | stim w => exact originFree_runDecoded (decodeStim16 w)
  | dispatch => exact originFree_dispatchOne
  | tick => exact fun _ _ h => .next h.tick

/-- A step is free of the origin: both states have the same word or entry to come. -/
theorem originFree_step : OriginFree step := originFree_of_moved fun s a b hd => by
  by_cases hb : s.bench = []
  · by_cases hs : s.schedule = []
    · rw [step_empty s hb hs, step_empty { s with TCNT := a, OCR := b } hb hs]
      exact originFree_dispatchOne _ _ ⟨rfl, hd⟩
    · obtain ⟨e, rest, hs⟩ := List.exists_cons_of_ne_nil hs
      rw [step_entry s e rest hb hs, step_entry { s with TCNT := a, OCR := b } e rest hb hs]
      exact originFree_runEntry e _ _ ⟨rfl, hd⟩
  · obtain ⟨w, rest, hb⟩ := List.exists_cons_of_ne_nil hb
    rw [step_bench s w rest hb, step_bench { s with TCNT := a, OCR := b } w rest hb]
    exact originFree_runDecoded _ _ _ ⟨rfl, hd⟩

/-- Settles O55: alike answers are next states that stay alike, or refusals on both sides. -/
theorem timerOriginIsUnobservable : Obligations.TimerOriginIsUnobservable := by
  intro s t h
  have alike := originFree_step s t h
  refine ⟨fun s' hs => ?next, fun r hs => ?refused⟩
  case next =>
    rw [hs] at alike
    cases ht : step t with
    | next t' => rw [ht] at alike; cases alike with | next h' => exact ⟨t', rfl, h'⟩
    | fault e => cases e
    | refused r => rw [ht] at alike; cases alike
  case refused =>
    rw [hs] at alike
    cases ht : step t with
    | next t' => rw [ht] at alike; cases alike
    | fault e => cases e
    | refused r' => exact ⟨r', rfl⟩

end Sys2Proof.Machine
end
